-- ==== Sys2Proof/Word.lean ====
section
/-! DEFINITION. The one word width of the hardware: every register, memory cell, opcode, operand and emitted
value is an unsigned byte (00_scope.md R6, R7). -/

namespace Sys2Proof

/-- An unsigned 8-bit value, 0..255 (R6: `CELL_WIDTH` and `REG_WIDTH` are 8 bits). -/
abbrev Byte := BitVec 8

end Sys2Proof
end

