-- ==== Sys2Proof/Config.lean ====
section
/-! DEFINITION. The configuration parameters the spec leaves open, as types (00_scope.md R6; they are "arguments of
the model"). The values this hardware takes are `Config.hardware`, in Decode.lean (log entry 1). The hardware has
no free value: 93_implementation_defined.md models no behaviour as `any value`. -/

namespace Sys2Proof

/-- `CALL_LINKAGE`: what CALL pushes (R6, R140, decision D6). -/
inductive CallLinkage where
  /-- CALL pushes the register's value, which is also its target. -/
  | observed
  /-- CALL pushes the address after the CALL, `pc + 2`. -/
  | conventional
deriving DecidableEq, Repr

/-- `POP_ON_EMPTY`: what POP does when the stack is empty (R6, R131, decision D7). -/
inductive PopOnEmpty where
  /-- POP raises `StackUnderflow(POP)`. -/
  | fault
  /-- POP changes only `pc`. -/
  | noop
deriving DecidableEq, Repr

/-- `OPCODE_MAP`: the opcode bytes of the four instructions the source gives no byte for (R6, R73, decision D4). -/
structure OpcodeMap where
  push : Byte
  pop  : Byte
  call : Byte
  ret  : Byte
deriving DecidableEq, Repr

/-- The named parameters of the core; fixed for a run and no part of the state (R20). -/
structure Config where
  callLinkage : CallLinkage
  popOnEmpty  : PopOnEmpty
  opcodeMap   : OpcodeMap
deriving DecidableEq, Repr

/-- `MEM_CAPACITY`: cells at addresses 0..255 (R6, R40). -/
abbrev memCapacity : Nat := 256

/-- `NREGS`: registers R0..R7 (R6, R21). -/
abbrev nregs : Nat := 8

/-- `PC_INIT`, the reset vector (R6, R190). -/
abbrev pcInit : Nat := 0

/-- `SP_INIT`, the empty stack (R6, R27): the last valid address. -/
abbrev spInit : Nat := 255

end Sys2Proof
end

