-- ==== Sys2Proof/Syntax.lean ====
section
/-! DEFINITION. The instructions, one constructor for each row of spec/opcode_table.json, and the instruction kinds
with their fixed operand counts (30_encoding.md R61 to R64). -/

namespace Sys2Proof

/-- The eight instruction kinds an opcode byte may name (R63, R64). -/
inductive Kind where
  | hlt
  | ldi
  | prn
  | mul
  | push
  | pop
  | call
  | ret
deriving DecidableEq, Repr

/-- The operand count, "fixed per opcode and known at decode time" (R60, R64). -/
def Kind.arity : Kind → Nat
  | .hlt => 0
  | .ldi => 2
  | .prn => 1
  | .mul => 2
  | .push => 1
  | .pop => 1
  | .call => 1
  | .ret => 0

/-- The length in bytes, `1 + arity` (R68). -/
def Kind.length (k : Kind) : Nat :=
  1 + k.arity

/-- An instruction with its operand bytes. A `reg` operand is a whole byte used as the register index and an
`imm8` operand a whole byte used as is (R62); every byte value passes decode in either field (R67). -/
inductive Instr where
  /-- HLT: halt (45_halt.md R150). -/
  | hlt
  /-- LDI Rr,v: load immediate (41_data_movement.md R100). -/
  | ldi (r v : Byte)
  /-- PRN Rr: emit a register (41_data_movement.md R101). -/
  | prn (r : Byte)
  /-- MUL Ra,Rb: multiply registers (42_arithmetic.md R115). -/
  | mul (a b : Byte)
  /-- PUSH Rr: push a register (43_stack.md R130). -/
  | push (r : Byte)
  /-- POP Rr: pop into a register (43_stack.md R131). -/
  | pop (r : Byte)
  /-- CALL Rr: call through a register (44_call_return.md R140). -/
  | call (r : Byte)
  /-- RET: return (44_call_return.md R141). -/
  | ret
deriving DecidableEq, Repr

/-- The kind of an instruction. -/
def Instr.kind : Instr → Kind
  | .hlt => .hlt
  | .ldi _ _ => .ldi
  | .prn _ => .prn
  | .mul _ _ => .mul
  | .push _ => .push
  | .pop _ => .pop
  | .call _ => .call
  | .ret => .ret

/-- The operand bytes in address order, operand A then operand B (R61). -/
def Instr.operands : Instr → List Byte
  | .hlt => []
  | .ldi r v => [r, v]
  | .prn r => [r]
  | .mul a b => [a, b]
  | .push r => [r]
  | .pop r => [r]
  | .call r => [r]
  | .ret => []

/-- The operand bytes that are register indices, in the order they are checked (R62, R87 item 4). -/
def Instr.regOperands : Instr → List Byte
  | .hlt => []
  | .ldi r _ => [r]
  | .prn r => [r]
  | .mul a b => [a, b]
  | .push r => [r]
  | .pop r => [r]
  | .call r => [r]
  | .ret => []

end Sys2Proof
end

