-- ==== Sys2Proof/WellFormed.lean ====
section
/-! DEFINITION. The checks the spec puts on terms. An instruction is well formed when its register operands name
registers (R23): these are the instructions the assembler can spell (R70). An ill-formed one is still legal bytes
(R67): it decodes, runs, and takes `OutOfBounds(REG, i)` (log entry 6). -/

namespace Sys2Proof

/-- Every register operand is an index in 0..7 (R10, R23, R70). -/
def Instr.wf (i : Instr) : Bool :=
  i.regOperands.all fun r => decide (r.toNat < nregs)

/-- What R73 requires of an `OPCODE_MAP`: the four bytes are distinct and differ from the four fixed opcodes. Its
third condition, the arity, holds by construction: a kind carries its own arity (`Kind.arity`, log entry 1). -/
def OpcodeMap.wf (m : OpcodeMap) : Bool :=
  decide [0x01#8, 0x82#8, 0x47#8, 0xA2#8, m.push, m.pop, m.call, m.ret].Nodup

/-- A configuration is well formed when its opcode map is (R73); the other two parameters have no ill-formed value. -/
def Config.wf (c : Config) : Bool :=
  c.opcodeMap.wf

/-- The image limits of R191 (decision D18): at most 256 values, each at most 255. -/
def imageWf (image : List Nat) : Bool :=
  decide (image.length ≤ memCapacity) && image.all fun b => decide (b ≤ 255)

end Sys2Proof
end

