-- ==== Sys2Proof/Decode.lean ====
section
/-! DEFINITION. The decoder and, after it, the encoder (30_encoding.md). A decoder is a finite mapping from the
whole opcode byte to an instruction kind (R63); operands are the bytes that follow, taken as they are (R62, R69). -/

namespace Sys2Proof

/-- The parameter values this hardware takes (00_scope.md R6). The four opcode bytes are the spec's decision D4,
which it marks as general knowledge (PRESUMED by the spec; log entry 1). -/
def Config.hardware : Config where
  callLinkage := .observed
  popOnEmpty := .fault
  opcodeMap := { push := 0x45, pop := 0x46, call := 0x50, ret := 0x11 }

/-- The opcode map, one row an instruction (R64); the rows of PUSH, POP, CALL and RET are configured (R73). -/
def Config.opcodeTable (c : Config) : List (Byte × Kind) :=
  [(0x01, .hlt), (0x82, .ldi), (0x47, .prn), (0xA2, .mul),
   (c.opcodeMap.push, .push), (c.opcodeMap.pop, .pop), (c.opcodeMap.call, .call), (c.opcodeMap.ret, .ret)]

/-- The kind of an opcode byte, by exact match of all 8 bits; none for an illegal byte (R63, R66). -/
def Config.kindOf (c : Config) (opcode : Byte) : Option Kind :=
  (c.opcodeTable.find? fun row => row.1 == opcode).map (·.2)

/-- Why bytes are no instruction. -/
inductive DecodeError where
  /-- There is no opcode byte. -/
  | noOpcode
  /-- The opcode byte has no row in the map (R66). -/
  | illegalOpcode (opcode : Byte)
  /-- Operand `k` (1 or 2), which the opcode needs, is not there (R82). -/
  | missingOperand (k : Nat)
deriving DecidableEq, Repr

/-- Format F1: one operand byte (R61). -/
def formatF1 (build : Byte → Instr) : List Byte → Except DecodeError (Instr × List Byte)
  | [] => .error (.missingOperand 1)
  | a :: rest => .ok (build a, rest)

/-- Format F2: operand A, then operand B (R61). -/
def formatF2 (build : Byte → Byte → Instr) : List Byte → Except DecodeError (Instr × List Byte)
  | [] => .error (.missingOperand 1)
  | [_] => .error (.missingOperand 2)
  | a :: b :: rest => .ok (build a b, rest)

/-- The operands of a kind, read from the bytes after the opcode "as needed" (R61, R68). -/
def decodeOperands (k : Kind) (bytes : List Byte) : Except DecodeError (Instr × List Byte) :=
  match k with
  | .hlt => .ok (.hlt, bytes)
  | .ldi => formatF2 .ldi bytes
  | .prn => formatF1 .prn bytes
  | .mul => formatF2 .mul bytes
  | .push => formatF1 .push bytes
  | .pop => formatF1 .pop bytes
  | .call => formatF1 .call bytes
  | .ret => .ok (.ret, bytes)

/-- Decode the first instruction of a byte sequence and answer it with the bytes that follow it. Total: it rejects
by name, the illegal opcode before any missing operand (R82, R87 items 2 and 3). -/
def decodeUnder (c : Config) : List Byte → Except DecodeError (Instr × List Byte)
  | [] => .error .noOpcode
  | opcode :: rest =>
    match c.kindOf opcode with
    | none => .error (.illegalOpcode opcode)
    | some k => decodeOperands k rest

/-- This hardware's decoder. -/
def decode (bytes : List Byte) : Except DecodeError (Instr × List Byte) :=
  decodeUnder Config.hardware bytes

/-- The opcode byte of a kind (R64, R73). -/
def Config.opcodeOf (c : Config) : Kind → Byte
  | .hlt => 0x01
  | .ldi => 0x82
  | .prn => 0x47
  | .mul => 0xA2
  | .push => c.opcodeMap.push
  | .pop => c.opcodeMap.pop
  | .call => c.opcodeMap.call
  | .ret => c.opcodeMap.ret

/-- The bytes of an instruction at increasing addresses: the opcode, operand A, operand B (R43, R61). -/
def encodeUnder (c : Config) (i : Instr) : List Byte :=
  c.opcodeOf i.kind :: i.operands

/-- This hardware's encoder. -/
def encode (i : Instr) : List Byte :=
  encodeUnder Config.hardware i

/-- The three bytes of a table word, bit 0 the least significant bit of the first byte; bits from `nbits` up are 0.
Three bytes are the longest instruction (R60). -/
def tableBytes (nbits w : Nat) : List Byte :=
  let v := w % 2 ^ nbits
  [BitVec.ofNat 8 v, BitVec.ofNat 8 (v / 256), BitVec.ofNat 8 (v / 65536)]

/-- The instruction this hardware's decoder reads from a word of spec/opcode_table.json. -/
def decodeTableWord (nbits w : Nat) : Option Instr :=
  match decode (tableBytes nbits w) with
  | .ok (i, _) => some i
  | .error _ => none

end Sys2Proof
end

