-- ==== Sys2Proof/Machine/State.lean ====
section
/-! DEFINITION. The architectural state (10_state.md R20: exactly these components), the fault taxonomy (R160), the
ways a step or a host input can be refused, and the state after reset (R36). State is plain data. -/

namespace Sys2Proof.Machine

/-- The two index spaces an `OutOfBounds` fault names (00_scope.md, glossary). -/
inductive Space where
  | mem
  | reg
deriving DecidableEq, Repr

/-- The instruction a `StackUnderflow` fault names (60_exceptions.md R164). -/
inductive StackInstr where
  | pop
  | ret
deriving DecidableEq, Repr

/-- The faults of the core (60_exceptions.md R160), each with its information. Raising one is an exception the spec
describes, so the machine TAKES it: `State.raise` records it in the status and the step answers a next state. No
meaning and no step answers `Outcome.fault` (log entry 2). -/
inductive Fault where
  /-- A memory access outside 0..255 or a register index outside 0..7. Raised by fetch, operand fetch, every
  register operand, and a push with `sp = 0` (R161). Safe: the spec names this fault for each case. -/
  | outOfBounds (space : Space) (index : Int)
  /-- An opcode byte outside the map, raised at decode (R162); its address is the record's `pc`. Safe: the spec
  names this fault. -/
  | illegalInstruction (opcode : Byte)
  /-- An ALU operation name outside {ADD, MUL} (R163): raised by `aluByName` only, and by no instruction. Safe. -/
  | unsupportedOperation (op : String)
  /-- POP (under `POP_ON_EMPTY = fault`) or RET on an empty stack (R164). Safe: the spec names this fault. -/
  | stackUnderflow (instr : StackInstr)
deriving DecidableEq, Repr

/-- The name of a fault, the record's `kind` (R160, R166). -/
inductive FaultKind where
  | outOfBounds
  | illegalInstruction
  | unsupportedOperation
  | stackUnderflow
deriving DecidableEq, Repr

/-- The record's `info`, the information of R160 as R166 lays it out. -/
inductive FaultInfo where
  | index (space : Space) (index : Int)
  | opcode (byte : Byte)
  | operation (op : String)
  | instr (i : StackInstr)
deriving DecidableEq, Repr

/-- The fault record held in `Faulted(f)` (R166). Its `code`, `kind` and `info` are views of the fault
(`Fault.code`, `Fault.kind`, `Fault.info` in Ops.lean; log entry 5). -/
structure FaultRecord where
  /-- The address of the faulting instruction's opcode. -/
  pc : Nat
  /-- The fault, with its information. -/
  fault : Fault
deriving DecidableEq, Repr

/-- What the model gives no state to. -/
inductive Refusal where
  /-- An instruction without a meaning yet; raised by `exec`'s arms only, and by none of them. Safe. -/
  | notModelled (mnemonic : String)
  /-- The host input `load` once a `step` input was given since the last `reset` (10_state.md R34); raised by
  `applyInput` only. Safe: the spec does not allow that input there (log entry 7). -/
  | loadNotAllowed
  /-- The host input `load` with an image over 256 values or with a value over 255 (R191, decision D18); raised by
  `applyInput` only. Safe: the host refuses to start the core (log entry 7). -/
  | imageRefused
deriving DecidableEq, Repr

/-- The engine's run state (10_state.md R31). -/
inductive Status where
  | running
  | halted
  | faulted (f : FaultRecord)
deriving DecidableEq, Repr

/-- The 256 cells (R33) as the pairs of address and byte that differ from what an unlisted address reads as,
addresses strictly rising (`Memory.wf` in Ops.lean). -/
abbrev Memory := List Host.Cell

/-- The architectural state (R20). -/
structure State where
  /-- `mem[0..255]` (R33). -/
  mem : Memory
  /-- `x[0..7]`, the registers R0..R7 (R21). -/
  x : Vector Byte 8
  /-- The program counter, an integer in 0..256 that never wraps (R25, R26). -/
  pc : Nat
  /-- The stack pointer, an integer in 0..255; 255 is the empty stack (R27, R28). -/
  sp : Nat
  /-- The run state (R31). -/
  status : Status
  /-- The bytes PRN emitted, oldest first (R32). -/
  out : List Byte
deriving DecidableEq, Repr

/-- The state right after reset (R36, R190): every cell and register 0, `pc` 0, `sp` 255, running, no output. -/
def State.reset : State where
  mem := []
  x := Vector.replicate 8 0
  pc := pcInit
  sp := spInit
  status := .running
  out := []

end Sys2Proof.Machine
end

