-- ==== Sys2Proof/Machine/Ops.lean ====
section
/-! DEFINITION. The named operations every meaning is written over: the memory and its bounds-checked access
(00_scope.md R8, R9), the stack, emitting, halting, advancing, and taking a fault. -/

namespace Sys2Proof.Machine

/-- The outcome type of every meaning and of the step. -/
abbrev Result := Host.Outcome State Fault Refusal

/-! ### Memory -/

/-- What an address no pair lists reads as: memory resets to zeros (R33, R36). -/
def Memory.unlisted : Byte :=
  0

/-- The byte at an address, as data; the bounds check is `State.memRead`. -/
def Memory.read : Memory → Nat → Byte
  | [], _ => Memory.unlisted
  | (k, w) :: rest, a => if a = k then w else Memory.read rest a

/-- The memory with one byte replaced, kept in canonical form; the bounds check is `State.memWrite`. -/
def Memory.write : Memory → Nat → Byte → Memory
  | [], a, v => if v = Memory.unlisted then [] else [(a, v)]
  | (k, w) :: rest, a, v =>
    if a < k then
      if v = Memory.unlisted then (k, w) :: rest else (a, v) :: (k, w) :: rest
    else if a = k then
      if v = Memory.unlisted then rest else (a, v) :: rest
    else (k, w) :: Memory.write rest a v

/-- The canonical form: addresses strictly rising, all inside 0..255 (R40), and no pair that says what an unlisted
address reads as. Equal memories are then equal lists. -/
abbrev Memory.wf (m : Memory) : Prop :=
  m.Pairwise (fun p q => p.1 < q.1) ∧ ∀ cell ∈ m, cell.1 < memCapacity ∧ cell.2 ≠ Memory.unlisted

/-- The byte at an address that exists; none outside 0..255 (R40, R42). -/
def Memory.read? (m : Memory) (a : Nat) : Option Byte :=
  if a < memCapacity then some (m.read a) else none

/-- `MemRead(addr, 1)` (R9). `addr` is an integer and may lie outside 0..255. -/
def State.memRead (s : State) (addr : Int) : Except Fault Byte :=
  if 0 ≤ addr ∧ addr ≤ 255 then .ok (s.mem.read addr.toNat) else .error (.outOfBounds .mem addr)

/-- `MemWrite(addr, 1, v)` (R9): the check comes before the access, and a write "overwrites unconditionally". -/
def State.memWrite (s : State) (addr : Int) (v : Byte) : Except Fault State :=
  if 0 ≤ addr ∧ addr ≤ 255 then .ok { s with mem := s.mem.write addr.toNat v }
  else .error (.outOfBounds .mem addr)

/-! ### The stack (10_state.md R27, R41) -/

/-- The address a push stores to: the new `sp` (R27, R41). -/
def State.pushAddr (s : State) : Nat :=
  s.sp - 1

/-- The push of PUSH and of CALL (R130, R140): `OutOfBounds(MEM, -1)` when `sp = 0`; else `sp` is decremented and
the byte written at the new `sp`. -/
def State.pushByte (s : State) (v : Byte) : Except Fault State :=
  if s.sp = 0 then .error (.outOfBounds .mem (-1))
  else State.memWrite { s with sp := s.pushAddr } s.pushAddr v

/-- The stack is empty exactly when `sp = 255` (R27). -/
def State.stackEmpty (s : State) : Bool :=
  decide (s.sp = spInit)

/-- The pop of POP and of RET on a stack that is not empty (R131, R141): the byte at `sp`, then `sp` incremented;
the cell is not cleared. -/
def State.popByte (s : State) : Except Fault (Byte × State) := do
  let v ← s.memRead s.sp
  return (v, { s with sp := s.sp + 1 })

/-! ### Output, halting, advancing -/

/-- `emit(v)`: append to the output channel (R8, R32). -/
def State.emit (s : State) (v : Byte) : State :=
  { s with out := s.out ++ [v] }

/-- `halt`: set the run status to `Halted` (R8, R31). -/
def State.halt (s : State) : State :=
  { s with status := .halted }

/-- The engine's advance past an instruction of a kind: exact addition of `1 + arity`, no wrap (R26, R84). -/
def State.advance (s : State) (k : Kind) : State :=
  { s with pc := s.pc + k.length }

/-- `pc <- target` of CALL and RET: the target is a byte, so an address 0..255 (R8, R143). -/
def State.jump (s : State) (target : Byte) : State :=
  { s with pc := target.toNat }

/-! ### Taking a fault, and the way out of one -/

/-- `raise`: fault entry, for every fault of the core (R11, R88, R167). The status becomes `Faulted(f)`, with `pc`
the faulting instruction's address, which `pc` still holds; nothing else changes, no register is saved, no handler
is entered. -/
def State.raise (s : State) (f : Fault) : State :=
  { s with status := .faulted { pc := s.pc, fault := f } }

/-- The only way out of `Faulted` and of `Halted`: the input `reset`, from any state (R168, R193). There is no
return from a fault. -/
def State.applyReset (_ : State) : State :=
  State.reset

/-- The end of a meaning that started in `s`: its writes all take effect if no check failed, and none of them does
if one did (R11, R12, R88). -/
def complete (s : State) (r : Except Fault State) : Result :=
  match r with
  | .ok t => .next t
  | .error f => .next (s.raise f)

/-! ### The views of a fault record (60_exceptions.md R160, R166) -/

/-- The numeric code of a fault (R160, decision D24). -/
def Fault.code : Fault → Nat
  | .outOfBounds _ _ => 1
  | .illegalInstruction _ => 2
  | .unsupportedOperation _ => 3
  | .stackUnderflow _ => 4

/-- The name of a fault (R160). -/
def Fault.kind : Fault → FaultKind
  | .outOfBounds _ _ => .outOfBounds
  | .illegalInstruction _ => .illegalInstruction
  | .unsupportedOperation _ => .unsupportedOperation
  | .stackUnderflow _ => .stackUnderflow

/-- The information of a fault (R160); for `IllegalInstruction` the opcode byte (R166). -/
def Fault.info : Fault → FaultInfo
  | .outOfBounds space index => .index space index
  | .illegalInstruction opcode => .opcode opcode
  | .unsupportedOperation op => .operation op
  | .stackUnderflow i => .instr i

end Sys2Proof.Machine
end

