-- ==== Sys2Proof/Machine/Operands.lean ====
section
/-! DEFINITION. The two operand forms (30_encoding.md R62): a `reg` operand is a byte checked against 0..7 when the
register is accessed, never masked (10_state.md R23); an `imm8` operand is the byte itself and needs no operation.
The hardware has no flags (R29), so there is no file of flag computations. -/

namespace Sys2Proof.Machine

/-- A register index as data: the value of R`i`. -/
def State.reg (s : State) (i : Fin 8) : Byte :=
  s.x[i]

/-- The state with R`i` replaced. No register is hardwired or aliased (R21, R24). -/
def State.setReg (s : State) (i : Fin 8) (v : Byte) : State :=
  { s with x := s.x.set i v }

/-- The bounds contract of a register operand (R10, R23): 0..7 selects R0..R7, 8..255 is out of range. -/
def regIndex (r : Byte) : Except Fault (Fin 8) :=
  if h : r.toNat < 8 then .ok ⟨r.toNat, h⟩ else .error (.outOfBounds .reg r.toNat)

/-- `x[r]` (R8, R10). -/
def State.readReg (s : State) (r : Byte) : Except Fault Byte := do
  let i ← regIndex r
  return s.reg i

/-- `x[r] <- v` (R8, R10). -/
def State.writeReg (s : State) (r v : Byte) : Except Fault State := do
  let i ← regIndex r
  return s.setReg i v

end Sys2Proof.Machine
end

