-- ==== Sys2Proof/Machine/Alu.lean ====
section
/-! DEFINITION. The ALU (42_arithmetic.md R110 to R114): a pure function of an operation and two bytes. Results
wrap modulo 256 and overflow is silent (R114, decision D2). -/

namespace Sys2Proof.Machine

/-- The closed enumeration of ALU operations (R110). No opcode reaches ADD (R13, R111). -/
inductive AluOp where
  | add
  | mul
deriving DecidableEq, Repr

/-- `ALU(op, a, b)` (R111, R112): the exact sum or product of the unsigned values, then its low 8 bits. -/
def alu (op : AluOp) (a b : Byte) : Byte :=
  match op with
  | .add => BitVec.ofNat 8 (a.toNat + b.toNat)
  | .mul => BitVec.ofNat 8 (a.toNat * b.toNat)

/-- The operation a name stands for (R113). -/
def AluOp.ofName (name : String) : Option AluOp :=
  if name = "ADD" then some .add else if name = "MUL" then some .mul else none

/-- The ALU called by operation name: a name outside {ADD, MUL} fails with `UnsupportedOperation(op)` (R113). No
instruction calls it: MUL passes the operation itself (R90), so this fault is unreachable (R163). -/
def aluByName (name : String) (a b : Byte) : Except Fault Byte :=
  match AluOp.ofName name with
  | some op => .ok (alu op a b)
  | none => .error (.unsupportedOperation name)

end Sys2Proof.Machine
end

