-- ==== Sys2Proof/Machine/Arithmetic.lean ====
section
/-! DEFINITION. Arithmetic: MUL, the one instruction that reaches the ALU (42_arithmetic.md R115, R90). -/

namespace Sys2Proof.Machine

/-- MUL a,b (R115): `x[a] <- ALU(MUL, x[a], x[b])`, operand A checked before operand B (R87), then the engine's
advance by 3. -/
def execMul (a b : Byte) (s : State) : Result :=
  complete s do
    let va ← s.readReg a
    let vb ← s.readReg b
    let t ← s.writeReg a (alu .mul va vb)
    return t.advance .mul

end Sys2Proof.Machine
end

