-- ==== Sys2Proof/Machine/CallReturn.lean ====
section
/-! DEFINITION. Subroutine call and return: CALL and RET (44_call_return.md). They set `pc` themselves and are not
advanced (R84). -/

namespace Sys2Proof.Machine

/-- The byte CALL pushes (R140): the target itself under `observed`; under `conventional` the address after the
CALL, checked to be storable (decision D19). -/
def linkByte (linkage : CallLinkage) (target : Byte) (s : State) : Except Fault Byte :=
  match linkage with
  | .observed => .ok target
  | .conventional =>
    if s.pc + Kind.call.length > 255 then .error (.outOfBounds .mem (s.pc + Kind.call.length : Nat))
    else .ok (BitVec.ofNat 8 (s.pc + Kind.call.length))

/-- CALL r under a value of `CALL_LINKAGE` (R140): the register first, then the return-address check, then the
push's check (R87 items 4 to 6); `pc` becomes the register's value. -/
def callUnder (linkage : CallLinkage) (r : Byte) (s : State) : Result :=
  complete s do
    let target ← s.readReg r
    let v ← linkByte linkage target s
    let t ← s.pushByte v
    return t.jump target

/-- CALL r of this hardware (`CALL_LINKAGE = observed`, decision D6). -/
def execCall (r : Byte) (s : State) : Result :=
  callUnder Config.hardware.callLinkage r s

/-- RET (R141): `StackUnderflow(RET)` on an empty stack under both values of `POP_ON_EMPTY` (decision D8); else the
popped byte becomes `pc`. -/
def execRet (s : State) : Result :=
  complete s do
    if s.stackEmpty then
      throw (.stackUnderflow .ret)
    else
      let (target, t) ← s.popByte
      return t.jump target

end Sys2Proof.Machine
end

