-- ==== Sys2Proof/Machine/DataMovement.lean ====
section
/-! DEFINITION. Data movement: LDI and PRN (41_data_movement.md). -/

namespace Sys2Proof.Machine

/-- LDI r,v (R100): `x[r] <- v`, then the engine's advance by 3. -/
def execLdi (r v : Byte) (s : State) : Result :=
  complete s do
    let t ← s.writeReg r v
    return t.advance .ldi

/-- PRN r (R101): `emit(x[r])`, then the engine's advance by 2. -/
def execPrn (r : Byte) (s : State) : Result :=
  complete s do
    let v ← s.readReg r
    return (s.emit v).advance .prn

end Sys2Proof.Machine
end

