-- ==== Sys2Proof/Machine/Halt.lean ====
section
/-! DEFINITION. Halt: HLT (45_halt.md). -/

namespace Sys2Proof.Machine

/-- HLT (R150): `status <- Halted`; `pc` keeps the address of the HLT (decision D10). -/
def execHlt (s : State) : Result :=
  complete s (.ok s.halt)

end Sys2Proof.Machine
end

