-- ==== Sys2Proof/Machine/Stack.lean ====
section
/-! DEFINITION. Stack discipline: PUSH and POP (43_stack.md). -/

namespace Sys2Proof.Machine

/-- PUSH r (R130): the register is read (and checked) before the stack is, then the byte is pushed; the engine's
advance by 2. -/
def execPush (r : Byte) (s : State) : Result :=
  complete s do
    let v ← s.readReg r
    let t ← s.pushByte v
    return t.advance .push

/-- POP r under a value of `POP_ON_EMPTY` (R131): the register index is checked first, even on an empty stack
(R87); the popped cell is not cleared; the engine's advance by 2 in both completing cases (R84). -/
def popUnder (onEmpty : PopOnEmpty) (r : Byte) (s : State) : Result :=
  complete s do
    let i ← regIndex r
    if s.stackEmpty then
      match onEmpty with
      | .fault => throw (.stackUnderflow .pop)
      | .noop => return s.advance .pop
    else
      let (v, t) ← s.popByte
      return (t.setReg i v).advance .pop

/-- POP r of this hardware (`POP_ON_EMPTY = fault`, decision D7). -/
def execPop (r : Byte) (s : State) : Result :=
  popUnder Config.hardware.popOnEmpty r s

end Sys2Proof.Machine
end

