-- ==== Sys2Proof/Machine/Engine.lean ====
section
/-! DEFINITION. The engine's step, for any configuration (40_engine.md R80 to R88): fetch, decode, execute. The
advance is part of each meaning (`State.advance`, R84). -/

namespace Sys2Proof.Machine

/-- The bytes of memory from an address on that an instruction there may take, at most three (R60); fewer where
memory ends. Reading a byte has no side effect (20_memory.md R45), so reading all of them before the decoder says
which it needs cannot be seen (R68; log entry 8). -/
def Memory.fetchBytes (m : Memory) (pc : Nat) : List Byte :=
  [pc, pc + 1, pc + 2].filterMap m.read?

/-- The fault of bytes that are no instruction, at `pc` (R81, R82): the missing byte's address is out of bounds, or
the opcode is illegal. -/
def DecodeError.fault (pc : Nat) : DecodeError → Fault
  | .noOpcode => .outOfBounds .mem pc
  | .illegalOpcode opcode => .illegalInstruction opcode
  | .missingOperand k => .outOfBounds .mem (pc + k : Nat)

/-- Fetch and decode the instruction at `pc` (R81, R82). -/
def fetch (c : Config) (s : State) : Except Fault Instr :=
  match decodeUnder c (s.mem.fetchBytes s.pc) with
  | .ok (i, _) => .ok i
  | .error e => .error (DecodeError.fault s.pc e)

/-- The whole step (R86) around a given execute function: no step unless `Running`, and then the input changes
nothing (R85); else fetch, decode and execute. -/
def engineStep (c : Config) (run : Instr → State → Result) (s : State) : Result :=
  match s.status with
  | .running =>
    match fetch c s with
    | .ok i => run i s
    | .error f => .next (s.raise f)
  | .halted => .next s
  | .faulted _ => .next s

/-- Execute under any configuration (R83): only POP and CALL depend on it. `exec` is this under
`Config.hardware`. -/
def execUnder (c : Config) (i : Instr) (s : State) : Result :=
  match i with
  | .hlt => execHlt s
  | .ldi r v => execLdi r v s
  | .prn r => execPrn r s
  | .mul a b => execMul a b s
  | .push r => execPush r s
  | .pop r => popUnder c.popOnEmpty r s
  | .call r => callUnder c.callLinkage r s
  | .ret => execRet s

/-- The step under any configuration: the readings the source leaves open (00_scope.md R6). -/
def stepUnder (c : Config) (s : State) : Result :=
  engineStep c (execUnder c) s

/-- The memory with bytes laid at increasing addresses from `a` on; a byte with no cell is left out. -/
def Memory.placeBytes (m : Memory) (a : Nat) : List Byte → Memory
  | [] => m
  | b :: rest => Memory.placeBytes (if a < memCapacity then m.write a b else m) (a + 1) rest

end Sys2Proof.Machine
end

