-- ==== Sys2Proof/Machine/Step.lean ====
section
/-! DEFINITION. The step of this hardware (40_engine.md R86), and the placing of one instruction where the next
step fetches. -/

namespace Sys2Proof.Machine

/-- One iteration of the engine's loop on this hardware. -/
def step (s : State) : Host.Outcome State Fault Refusal :=
  engineStep Config.hardware exec s

/-- The state with a table word's bytes at `pc`, running, so that the next step runs that instruction. It stands
for the host's load of a program (70_reset_and_hazards.md R191; log entry 7). -/
def State.withFetchWord (s : State) (nbits w : Nat) : State :=
  { s with mem := s.mem.placeBytes s.pc (tableBytes nbits w), status := .running }

end Sys2Proof.Machine
end

