-- ==== Sys2Proof/Machine/Assembly.lean ====
section
/-! DEFINITION. The assembler syntax (30_encoding.md R70, with the lexical rules of decision D17): a mnemonic, then
the operands separated by a comma with optional spaces; registers `R0` to `R7`; immediates decimal, 0 to 255. No
labels, directives or pseudo-instructions (R72). Text only: nothing in the core depends on it. What D17 leaves open
is log entry 10. -/

namespace Sys2Proof.Machine

/-- The mnemonic of a kind (R64). -/
def mnemonic : Kind → List Char
  | .hlt => ['H', 'L', 'T']
  | .ldi => ['L', 'D', 'I']
  | .prn => ['P', 'R', 'N']
  | .mul => ['M', 'U', 'L']
  | .push => ['P', 'U', 'S', 'H']
  | .pop => ['P', 'O', 'P']
  | .call => ['C', 'A', 'L', 'L']
  | .ret => ['R', 'E', 'T']

/-- The kind a mnemonic names. -/
def kindOfMnemonic (name : List Char) : Option Kind :=
  [Kind.hlt, .ldi, .prn, .mul, .push, .pop, .call, .ret].find? fun k => mnemonic k == name

/-- A decimal digit. -/
def digitChar (n : Nat) : Char :=
  Char.ofNat (48 + n)

/-- The value of a decimal digit. -/
def digitValue (ch : Char) : Option Nat :=
  if 48 ≤ ch.toNat ∧ ch.toNat ≤ 57 then some (ch.toNat - 48) else none

/-- A number below 1000 in decimal, without leading zeros. -/
def decimal (n : Nat) : List Char :=
  if n < 10 then [digitChar n]
  else if n < 100 then [digitChar (n / 10), digitChar (n % 10)]
  else [digitChar (n / 100), digitChar (n / 10 % 10), digitChar (n % 10)]

/-- The digits read so far, continued. -/
def readDigits (acc : Nat) : List Char → Option Nat
  | [] => some acc
  | ch :: rest =>
    match digitValue ch with
    | some d => readDigits (acc * 10 + d) rest
    | none => none

/-- An `imm8` operand: a decimal integer 0..255. -/
def readImm (text : List Char) : Option Byte :=
  match text with
  | [] => none
  | _ =>
    match readDigits 0 text with
    | some n => if n ≤ 255 then some (BitVec.ofNat 8 n) else none
    | none => none

/-- A register operand: `R0` to `R7`. -/
def readRegName (text : List Char) : Option Byte :=
  match text with
  | ['R', d] =>
    match digitValue d with
    | some n => if n < nregs then some (BitVec.ofNat 8 n) else none
    | none => none
  | _ => none

/-- A register operand as written. -/
def regName (r : Byte) : List Char :=
  'R' :: decimal r.toNat

/-- The operands as written, after a space and separated by a comma. -/
def operandText : Instr → List Char
  | .hlt => []
  | .ldi r v => ' ' :: regName r ++ ',' :: decimal v.toNat
  | .prn r => ' ' :: regName r
  | .mul a b => ' ' :: regName a ++ ',' :: regName b
  | .push r => ' ' :: regName r
  | .pop r => ' ' :: regName r
  | .call r => ' ' :: regName r
  | .ret => []

/-- An instruction as written (R70); none for one whose register operand is no register, which has no spelling. -/
def assembly (i : Instr) : Option (List Char) :=
  if i.wf then some (mnemonic i.kind ++ operandText i) else none

/-- Spaces taken off both ends. -/
def trimSpaces (text : List Char) : List Char :=
  ((text.dropWhile (· == ' ')).reverse.dropWhile (· == ' ')).reverse

/-- The operands of a line's rest: the parts between commas, spaces taken off. -/
def splitOperands (text : List Char) : List (List Char) :=
  match text.span (· != ',') with
  | (a, []) => [trimSpaces a]
  | (a, _ :: b) => [trimSpaces a, trimSpaces b]

/-- One line of assembler text as an instruction (R70); none where it spells none. -/
def assemble (line : List Char) : Option Instr :=
  match (trimSpaces line).span (· != ' ') with
  | (name, rest) =>
    match kindOfMnemonic name, splitOperands rest with
    | some .hlt, [[]] => some .hlt
    | some .ret, [[]] => some .ret
    | some .ldi, [a, b] => do return .ldi (← readRegName a) (← readImm b)
    | some .mul, [a, b] => do return .mul (← readRegName a) (← readRegName b)
    | some .prn, [a] => do return .prn (← readRegName a)
    | some .push, [a] => do return .push (← readRegName a)
    | some .pop, [a] => do return .pop (← readRegName a)
    | some .call, [a] => do return .call (← readRegName a)
    | _, _ => none

end Sys2Proof.Machine
end

