-- ==== Sys2Proof/Machine/Block.lean ====
section
/-! DEFINITION. The block as its host drives it, at the level of whole instructions (10_state.md R34): the inputs
`reset`, `load` and `step`, the load of a program image (70_reset_and_hazards.md R191), and a host's run with its three
ends (R198). The outputs `status`, `out` and the state read port are the fields of State. -/

namespace Sys2Proof.Machine

/-- The inputs of the block (R34). The values of an image are the host's integers, checked before they are
written. -/
inductive Input where
  | reset
  | load (image : List Nat)
  | step
deriving DecidableEq, Repr

/-- The memory after the load of an image: byte `i` of it at address `i`, every other cell as it was (R191). -/
def Memory.load (m : Memory) (image : List Nat) : Memory :=
  m.placeBytes 0 (image.map (BitVec.ofNat 8))

/-- The state with an image in its memory (R191): a load writes nothing else. -/
def State.loadImage (s : State) (image : List Nat) : State :=
  { s with mem := s.mem.load image }

/-- Where the block stands in the order reset, load, steps (R34, R192). -/
inductive Phase where
  /-- After `reset` and before the first `step`: `load` is allowed. -/
  | loading
  /-- A `step` was given since the last `reset`: `load` is not allowed. -/
  | stepping
deriving DecidableEq, Repr

/-- The block: the architectural state, which R20 says is complete, and the phase that decides whether `load` is
allowed (R34). No instruction reads or writes the phase (R35; log entry 7). -/
structure Block where
  /-- The architectural state. -/
  state : State
  /-- Whether the first `step` is still to come. -/
  phase : Phase
deriving DecidableEq, Repr

/-- The block right after reset (R36, R190). -/
def Block.reset : Block where
  state := State.reset
  phase := .loading

/-- The outcome type of a host input. -/
abbrev BlockResult := Host.Outcome Block Fault Refusal

/-- The input `reset` (R34, R190, R193): accepted at any time, it opens the time for loads again. -/
def Block.applyReset (b : Block) : BlockResult :=
  .next { state := b.state.applyReset, phase := .loading }

/-- The input `load` (R34, R191): refused for an image outside the limits (decision D18), and once a `step` was
given; before that it writes the image, and a further load may follow. -/
def Block.applyLoad (b : Block) (image : List Nat) : BlockResult :=
  if imageWf image then
    match b.phase with
    | .loading => .next { b with state := b.state.loadImage image }
    | .stepping => .refused .loadNotAllowed
  else .refused .imageRefused

/-- The input `step` (R34): one step of the core, after which no load is allowed until the next `reset`. -/
def Block.applyStep (b : Block) : BlockResult :=
  match step b.state with
  | .next t => .next { state := t, phase := .stepping }
  | .fault f => .fault f
  | .refused r => .refused r

/-- One host input (R34). -/
def applyInput (input : Input) (b : Block) : BlockResult :=
  match input with
  | .reset => b.applyReset
  | .load image => b.applyLoad image
  | .step => b.applyStep

/-- Host inputs one after another, up to the first that is refused. -/
def applyInputs : List Input → Block → BlockResult
  | [], b => .next b
  | input :: rest, b =>
    match applyInput input b with
    | .next c => applyInputs rest c
    | .fault f => .fault f
    | .refused r => .refused r

/-- How a host's run ends (R198). -/
inductive RunEnd where
  /-- A clean halt by HLT. -/
  | halted (s : State)
  /-- A fault. -/
  | faulted (f : FaultRecord) (s : State)
  /-- `STEP_LIMIT` steps completed and the core still runs. -/
  | timeout (s : State)
  /-- A step that answers no next state; no step does (kept so that the function is total). -/
  | noStep
deriving DecidableEq, Repr

/-- The run of a host that sets `STEP_LIMIT = limit` (R198, decision D14). With `STEP_LIMIT = none`, this hardware's
value, a run ends with an end exactly when some limit gives it an end other than `timeout` (`EndsWith`). -/
def runHost (limit : Nat) (s : State) : RunEnd :=
  match s.status with
  | .halted => .halted s
  | .faulted f => .faulted f s
  | .running =>
    match limit with
    | 0 => .timeout s
    | n + 1 =>
      match step s with
      | .next t => runHost n t
      | .fault _ => .noStep
      | .refused _ => .noStep

/-- The run without a limit (R198, `STEP_LIMIT = none`): it ends in `e` when it does so within some number of
steps; a run with no end is infinite (R89). -/
def EndsWith (s : State) (e : RunEnd) : Prop :=
  ∃ n, runHost n s = e ∧ ∀ t, e ≠ .timeout t

end Sys2Proof.Machine
end

