-- ==== Sys2Proof/Safety.lean ====
section
/-! DEFINITION. What claims about runs are stated in: the ranges of the state, a clean halt, and the faults a running
core can report. -/

namespace Sys2Proof.Machine

/-- The state as the state vector gives it (R20): memory canonical with addresses in 0..255 (R33, R40), `pc` in
0..256 (R26), `sp` in 0..255 (R28), and a fault record's `pc` is the `pc` that is kept (R166). -/
structure State.Inv (s : State) : Prop where
  mem_wf : s.mem.wf
  pc_le : s.pc ≤ memCapacity
  sp_le : s.sp ≤ spInit
  record_pc : ∀ f, s.status = .faulted f → f.pc = s.pc

/-- The block as its host can bring it about: its state is in range, and until the first `step` only a load has
touched it, so everything but memory is as after reset (R34, R36, R191). -/
structure Block.Inv (b : Block) : Prop where
  state_inv : b.state.Inv
  loading : b.phase = .loading → b.state = { State.reset with mem := b.state.mem }

/-- The faults this hardware can report under a configuration (R161 to R164). `UnsupportedOperation` is none of
them (R163). -/
inductive Reportable (c : Config) : Fault → Prop where
  /-- A fetch or operand fetch past the end, or CALL at 254 under the conventional linkage (R161). -/
  | pastEnd : Reportable c (.outOfBounds .mem 256)
  /-- A push with `sp = 0` (R161). -/
  | belowZero : Reportable c (.outOfBounds .mem (-1))
  /-- A register operand in 8..255 (R161). -/
  | register (r : Byte) : 8 ≤ r.toNat → Reportable c (.outOfBounds .reg r.toNat)
  /-- An opcode byte with no row (R162). -/
  | illegal (b : Byte) : c.kindOf b = none → Reportable c (.illegalInstruction b)
  /-- POP on an empty stack where the configuration says fault (R164). -/
  | popEmpty : c.popOnEmpty = .fault → Reportable c (.stackUnderflow .pop)
  /-- RET on an empty stack (R164). -/
  | retEmpty : Reportable c (.stackUnderflow .ret)

/-- A safe run: it ends in a clean halt (R198). -/
def HaltsCleanly (s : State) : Prop :=
  ∃ t, EndsWith s (.halted t)

/-- The byte that names a register in a `reg` operand (R62). -/
def regByte (i : Fin 8) : Byte :=
  BitVec.ofNat 8 i.val

/-- The register operand an instruction writes (10_state.md R22). -/
def destination : Instr → Option Byte
  | .hlt => none
  | .ldi r _ => some r
  | .prn _ => none
  | .mul a _ => some a
  | .push _ => none
  | .pop r => some r
  | .call _ => none
  | .ret => none

/-- Instructions executed one after another, without fetching them. -/
def execAll : List Instr → State → Result
  | [], s => .next s
  | i :: rest, s =>
    match exec i s with
    | .next t => execAll rest t
    | .fault f => .fault f
    | .refused r => .refused r

/-- What POPs into the given registers yield, each register's value read right after its POP, and the state they
end in (R132). -/
def popValues : List (Fin 8) → State → Option (List Byte × State)
  | [], s => some ([], s)
  | d :: rest, s =>
    match exec (.pop (regByte d)) s with
    | .next t => (popValues rest t).map fun (vs, u) => (t.reg d :: vs, u)
    | .fault _ => none
    | .refused _ => none

end Sys2Proof.Machine
end

