-- ==== Sys2Proof/Certificates/Slice0/Obligations.lean ====
section
/-! DEFINITION. The statements for the provers. Each docstring names the rule of spec/ it formalises. A statement
about a next state names every component of State, so that what an instruction leaves unchanged is part of it. -/

open Sys2Proof Sys2Proof.Machine

/-! ### Reset, load, the block's inputs -/

/-- R190 with the table of R36: the input `reset` gives, at every time, every cell and register 0, `pc` 0, `sp` 255,
running, no output. -/
def Obligations.ResetGivesTheStatedState : Prop :=
  ∀ b : Block, ∃ c, applyInput .reset b = .next c ∧ c.state = State.reset ∧
    (∀ a, a < 256 → c.state.mem.read? a = some 0) ∧ (∀ i : Fin 8, c.state.reg i = 0) ∧
    c.state.pc = 0 ∧ c.state.sp = 255 ∧ c.state.status = .running ∧ c.state.out = []

/-- R34, R191 (the limits are the spec's decision D18; the phase is the model's, log entry 7): before the first
`step`, an image within the limits is written at 0..len-1 and every other cell and component is as it was, so 0 and as
after reset when it is the first load; an image outside the limits is refused; with an empty image the first step
raises `IllegalInstruction(0x00, 0)`. -/
def Obligations.LoadPlacesTheImage : Prop :=
  (∀ (image : List Nat) (b : Block), image.length ≤ 256 → (∀ v ∈ image, v ≤ 255) → b.Inv → b.phase = .loading →
    ∃ c, applyInput (.load image) b = .next c ∧ c.phase = .loading ∧
      (∀ (i : Nat) (h : i < image.length), (c.state.mem.read? i).map (·.toNat) = some image[i]) ∧
      (∀ a, image.length ≤ a → c.state.mem.read? a = b.state.mem.read? a) ∧
      (∀ i : Fin 8, c.state.reg i = b.state.reg i) ∧ c.state.pc = b.state.pc ∧ c.state.sp = b.state.sp ∧
      c.state.status = b.state.status ∧ c.state.out = b.state.out) ∧
  (∀ (image : List Nat) (c : Block), applyInput (.load image) Block.reset = .next c →
    (∀ a, image.length ≤ a → a < 256 → c.state.mem.read? a = some 0) ∧ (∀ i : Fin 8, c.state.reg i = 0) ∧
      c.state.pc = 0 ∧ c.state.sp = 255 ∧ c.state.status = .running ∧ c.state.out = []) ∧
  (∀ (image : List Nat) (b : Block), (256 < image.length ∨ ∃ v ∈ image, 255 < v) →
    applyInput (.load image) b = .refused .imageRefused) ∧
  (∃ b c, applyInput (.load []) Block.reset = .next b ∧ applyInput .step b = .next c ∧
    c.state = { b.state with status := .faulted { pc := 0, fault := .illegalInstruction 0x00 } })

/-- R34: after a `reset` and inputs with no further one, a load within the limits is accepted when no `step` is among
them, however many loads are, and refused when one is (the refusal's name is the model's, log entry 7). -/
def Obligations.LoadIsAllowedExactlyUntilTheFirstStep : Prop :=
  ∀ (b c : Block) (inputs : List Input) (image : List Nat), image.length ≤ 256 → (∀ v ∈ image, v ≤ 255) →
    .reset ∉ inputs → applyInputs (.reset :: inputs) b = .next c →
    (.step ∉ inputs → ∃ d, applyInput (.load image) c = .next d) ∧
    (.step ∈ inputs → applyInput (.load image) c = .refused .loadNotAllowed)

/-- What R36 and R80 to R86 come to together: no step of a running machine ends in the state right after reset. -/
def Obligations.NoStepLeadsBackToReset : Prop :=
  ∀ s t : State, s.Inv → s.status = .running → step s = .next t → t ≠ State.reset

/-- R151, R168, R193 (the spec's decisions D22, D23): a stopped machine is changed by no input but `reset`. -/
def Obligations.OnlyResetLeavesAStoppedState : Prop :=
  ∀ (b c : Block) (input : Input), b.Inv → b.state.status ≠ .running → applyInput input b = .next c →
    (input = .reset ∧ c.state = State.reset) ∨ (input = .step ∧ c = b)

/-! ### The step -/

/-- R80, R83: when a running machine's bytes at `pc` decode to an instruction, the step is that instruction's
execution (which holds its own advance of `pc`). -/
def Obligations.StepExecutesTheDecodedInstruction : Prop :=
  ∀ (s : State) (i : Instr) (rest : List Byte), s.status = .running →
    decode (s.mem.fetchBytes s.pc) = .ok (i, rest) → step s = exec i s

/-- R25, R43: the same, with the instruction's bytes stated cell by cell at `pc`, `pc + 1`, `pc + 2`. -/
def Obligations.StepExecutesTheBytesAtPc : Prop :=
  ∀ (s : State) (i : Instr), s.status = .running →
    (∀ (k : Nat) (b : Byte), (encode i)[k]? = some b → s.mem.read? (s.pc + k) = some b) →
    step s = exec i s

/-- R81 (the range of `pc` is the spec's decision D3): the only `pc` outside 0..255 a step can start with is 256, and
its fetch raises `OutOfBounds(MEM, 256)`. -/
def Obligations.FetchPastTheEndFaults : Prop :=
  ∀ s : State, s.Inv → s.status = .running → ¬s.pc ≤ 255 →
    s.pc = 256 ∧ step s = .next { s with status := .faulted { pc := 256, fault := .outOfBounds .mem 256 } }

/-- R162 (and R66) with the eight bytes of R64: an opcode byte that is none of them raises `IllegalInstruction`,
recording the byte and its address. Of the eight, 0x45, 0x46, 0x50 and 0x11 are the model's presumption (log entry 1,
the spec's decision D4). -/
def Obligations.UnlistedOpcodeFaults : Prop :=
  ∀ (s : State) (b : Byte), s.status = .running → s.mem.read? s.pc = some b →
    b ∉ [0x01#8, 0x82#8, 0x47#8, 0xA2#8, 0x45#8, 0x46#8, 0x50#8, 0x11#8] →
    step s = .next { s with status := .faulted { pc := s.pc, fault := .illegalInstruction b } }

/-- R82: an operand byte that would lie at 256 raises `OutOfBounds(MEM, 256)`, whatever else holds. -/
def Obligations.OperandFetchPastTheEndFaults : Prop :=
  ∀ (s : State) (b : Byte) (k : Kind), s.status = .running → s.mem.read? s.pc = some b →
    Config.hardware.kindOf b = some k → 256 < s.pc + 1 + k.arity →
    step s = .next { s with status := .faulted { pc := s.pc, fault := .outOfBounds .mem 256 } }

/-- R85 (the spec's decision D22): once `Halted` or `Faulted`, every later step changes nothing; after a step that
leaves `Running`, the next one begins at the new `pc`. -/
def Obligations.StoppedMachineTakesNoStep : Prop :=
  (∀ (n : Nat) (s : State), s.status ≠ .running → core.run n s = .next s) ∧
  (∀ (s t : State) (i : Instr) (rest : List Byte), step s = .next t → t.status = .running →
    decode (t.mem.fetchBytes t.pc) = .ok (i, rest) → step t = exec i t)

/-- R86: every step, and every instruction's execution, has an outcome, and it is a next state; a step from `Running`
ends in `Running`, `Halted` or `Faulted`. No step answers `Outcome.fault` or a refusal (log entry 2). -/
def Obligations.EveryStepAnswersANextState : Prop :=
  (∀ s : State, ∃ t, step s = .next t) ∧ (∀ (i : Instr) (s : State), ∃ t, exec i s = .next t)

/-- R88 (the spec's decision D12): a faulting step changes nothing but `status`; the record's `pc` is the faulting
instruction's address, which `pc` keeps. -/
def Obligations.FaultsArePrecise : Prop :=
  ∀ (s t : State) (f : FaultRecord), s.status = .running → step s = .next t → t.status = .faulted f →
    f.pc = s.pc ∧ t = { s with status := .faulted f }

/-- R84: LDI, PRN, MUL, PUSH and POP advance `pc` by `1 + n`, exactly, whenever they complete, under every
configuration, with the result in 2..256; CALL and RET set `pc` to their target; HLT keeps it (the spec's decision
D10). -/
def Obligations.AdvanceOfPc : Prop :=
  ∀ (c : Config) (s t : State) (b : Byte) (k : Kind), s.Inv → s.status = .running →
    s.mem.read? s.pc = some b → c.kindOf b = some k → stepUnder c s = .next t →
    (∀ f, t.status ≠ .faulted f) →
    (k ∈ [Kind.ldi, .prn, .mul, .push, .pop] → t.pc = s.pc + 1 + k.arity ∧ 2 ≤ t.pc ∧ t.pc ≤ 256) ∧
    (k = .call → ∃ i : Fin 8, s.mem.read? (s.pc + 1) = some (regByte i) ∧ t.pc = (s.reg i).toNat) ∧
    (k = .ret → t.pc = (s.mem.read s.sp).toNat) ∧
    (k = .hlt → t.pc = s.pc ∧ t.status = .halted)

/-- R87: when several faults apply, the first of the order fetch, decode, operand fetch, register A, register B,
return address, stack is the one taken. Each clause leaves everything later in the order free. Items 4 to 6 are the
spec's own choice (decisions D7, D8, D9, D11, D19). -/
def Obligations.FirstFaultOfTheOrder : Prop :=
  (∀ (c : Config) (s : State), s.status = .running → s.pc = 256 →
    stepUnder c s = .next (s.raise (.outOfBounds .mem 256))) ∧
  (∀ (c : Config) (s : State) (b : Byte), s.status = .running → s.mem.read? s.pc = some b → c.kindOf b = none →
    stepUnder c s = .next (s.raise (.illegalInstruction b))) ∧
  (∀ (c : Config) (s : State) (b : Byte) (k : Kind), s.status = .running → s.mem.read? s.pc = some b →
    c.kindOf b = some k → 256 < s.pc + 1 + k.arity → stepUnder c s = .next (s.raise (.outOfBounds .mem 256))) ∧
  (∀ (c : Config) (s : State) (i : Instr) (r : Byte), (i ∈ [.prn r, .push r, .pop r, .call r] ∨ ∃ v, i = .ldi r v) →
    8 ≤ r.toNat → execUnder c i s = .next (s.raise (.outOfBounds .reg r.toNat))) ∧
  (∀ (c : Config) (s : State) (a b : Byte), 8 ≤ a.toNat →
    execUnder c (.mul a b) s = .next (s.raise (.outOfBounds .reg a.toNat))) ∧
  (∀ (c : Config) (s : State) (a b : Byte), a.toNat < 8 → 8 ≤ b.toNat →
    execUnder c (.mul a b) s = .next (s.raise (.outOfBounds .reg b.toNat))) ∧
  (∀ (c : Config) (s : State) (r : Byte), c.callLinkage = .conventional → r.toNat < 8 → 255 < s.pc + 2 →
    execUnder c (.call r) s = .next (s.raise (.outOfBounds .mem (s.pc + 2 : Nat)))) ∧
  (∀ (c : Config) (s : State) (r : Byte), r.toNat < 8 → s.sp = 0 →
    execUnder c (.push r) s = .next (s.raise (.outOfBounds .mem (-1))) ∧
    (c.callLinkage = .observed ∨ s.pc + 2 ≤ 255 →
      execUnder c (.call r) s = .next (s.raise (.outOfBounds .mem (-1))))) ∧
  (∀ (c : Config) (s : State) (r : Byte), s.sp = 255 →
    (r.toNat < 8 → c.popOnEmpty = .fault → execUnder c (.pop r) s = .next (s.raise (.stackUnderflow .pop))) ∧
    execUnder c .ret s = .next (s.raise (.stackUnderflow .ret)))

/-- R161 to R164: the faults a step can report, under every configuration (some of them the spec's decisions D7, D8,
D9, D19). -/
def Obligations.OnlyTheListedFaultsOccur : Prop :=
  ∀ (c : Config) (s t : State) (f : FaultRecord), s.Inv → s.status = .running → stepUnder c s = .next t →
    t.status = .faulted f → Reportable c f.fault

/-- R163 and R113: the ALU called with a name outside {ADD, MUL} fails with `UnsupportedOperation`, with ADD and MUL
it does not, and no step ever reports that fault (the spec's decision D21; names as strings are the model's, log entry
12). -/
def Obligations.UnsupportedOperationIsUnreachable : Prop :=
  (∀ (name : String) (a b : Byte), name ≠ "ADD" → name ≠ "MUL" →
    aluByName name a b = .error (.unsupportedOperation name)) ∧
  (∀ a b : Byte, aluByName "ADD" a b = .ok (alu .add a b) ∧ aluByName "MUL" a b = .ok (alu .mul a b)) ∧
  (∀ (s t : State) (f : FaultRecord) (op : String), s.status = .running → step s = .next t →
    t.status = .faulted f → f.fault ≠ .unsupportedOperation op)

/-- R160, R166 (codes and layout are the spec's decision D24): the code, the kind and the information of a record, for
each of the four faults. -/
def Obligations.FaultRecordFields : Prop :=
  (∀ (space : Space) (n : Int), (Fault.outOfBounds space n).code = 1 ∧
    (Fault.outOfBounds space n).kind = .outOfBounds ∧ (Fault.outOfBounds space n).info = .index space n) ∧
  (∀ b : Byte, (Fault.illegalInstruction b).code = 2 ∧ (Fault.illegalInstruction b).kind = .illegalInstruction ∧
    (Fault.illegalInstruction b).info = .opcode b) ∧
  (∀ op : String, (Fault.unsupportedOperation op).code = 3 ∧
    (Fault.unsupportedOperation op).kind = .unsupportedOperation ∧
    (Fault.unsupportedOperation op).info = .operation op) ∧
  (∀ i : StackInstr, (Fault.stackUnderflow i).code = 4 ∧ (Fault.stackUnderflow i).kind = .stackUnderflow ∧
    (Fault.stackUnderflow i).info = .instr i)

/-! ### Invariants -/

/-- R26 (decision D3), R28, R40, R166: every step, under every configuration, keeps memory canonical inside 0..255,
`pc` in 0..256, `sp` in 0..255 and a fault record's `pc` equal to `pc`. -/
def Obligations.StepKeepsTheStateInRange : Prop :=
  (∀ s t : State, s.Inv → step s = .next t → t.Inv) ∧
  (∀ (c : Config) (s t : State), s.Inv → stepUnder c s = .next t → t.Inv)

/-- The reset state satisfies that invariant, and the block after reset its own (R36). -/
def Obligations.ResetIsInRange : Prop :=
  State.reset.Inv ∧ Block.reset.Inv

/-- R34, R190, R191: every input of the block keeps its state in range, and keeps everything but memory as after reset
until the first `step` (the phase is the model's, log entry 7). -/
def Obligations.HostInputKeepsTheStateInRange : Prop :=
  ∀ (input : Input) (b c : Block), b.Inv → applyInput input b = .next c → c.Inv

/-- R32: a step changes `out` only by PRN, which appends one byte, the value of its register; what was emitted stays.
-/
def Obligations.OnlyPrnChangesTheOutput : Prop :=
  ∀ s t : State, step s = .next t →
    t.out = s.out ∨
      ∃ i : Fin 8, s.mem.read? s.pc = some 0x47 ∧ s.mem.read? (s.pc + 1) = some (regByte i) ∧
        t.out = s.out ++ [s.reg i]

/-- R27: only PUSH, POP, CALL and RET change `sp`, and they change it by one. Their opcode bytes are the model's
presumption (log entry 1). -/
def Obligations.OnlyStackInstructionsMoveSp : Prop :=
  ∀ s t : State, step s = .next t →
    t.sp = s.sp ∨
      (t.sp + 1 = s.sp ∧ (s.mem.read? s.pc = some 0x45 ∨ s.mem.read? s.pc = some 0x50)) ∨
      (t.sp = s.sp + 1 ∧ (s.mem.read? s.pc = some 0x46 ∨ s.mem.read? s.pc = some 0x11))

/-- R27: cell 255 is never a stack cell, so no step changes it. -/
def Obligations.CellAtTheTopIsNeverStoredTo : Prop :=
  ∀ s t : State, s.Inv → step s = .next t → t.mem.read? 255 = s.mem.read? 255

/-- R22, R32, R41: nothing the core does depends on the bytes already emitted. -/
def Obligations.OutputIsNeverRead : Prop :=
  ∀ (s t : State) (before : List Byte), step s = .next t →
    step { s with out := before ++ s.out } = .next { t with out := before ++ t.out }

/-- R51, R195: a byte PUSH stores is what the very next fetch at that address reads: pushed where `pc` then stands, it
is the next opcode (the spec's decision D16). -/
def Obligations.PushedByteIsTheNextOpcode : Prop :=
  ∀ (s t : State) (i : Fin 8), s.Inv → s.status = .running → exec (.push (regByte i)) s = .next t →
    t.status = .running → t.pc = t.sp →
    (Config.hardware.kindOf (s.reg i) = none → step t = .next (t.raise (.illegalInstruction (s.reg i)))) ∧
    (s.reg i = 0x01 → step t = .next { t with status := .halted })

/-! ### Runs -/

/-- R198: a host's run ends exactly as the state its steps lead to says: halted, faulted, or still running when the
limit is reached; and stepping past the end would change nothing (R85). The limit is the host's (decision D14). -/
def Obligations.RunEndsAsTheStatusSays : Prop :=
  ∀ (n : Nat) (s : State), ∃ t, core.run n s = .next t ∧
    ((t.status = .halted ∧ runHost n s = .halted t) ∨
     (∃ f, t.status = .faulted f ∧ runHost n s = .faulted f t) ∨
     (t.status = .running ∧ runHost n s = .timeout t))

/-- R86, R198: without a limit, a run has at most one end. -/
def Obligations.RunWithoutLimitHasOneEnd : Prop :=
  ∀ (s : State) (e e' : RunEnd), EndsWith s e → EndsWith s e' → e = e'

/-! ### The instructions, one by one -/

/-- R100, LDI: the register operand's register takes the immediate and `pc` moves by 3, with no other register, cell,
`sp` or `out` changed; an index in 8..255 raises `OutOfBounds(REG, r)`; the encoding is 0x82, r, v; starting at 254 or
255 the operand fetch faults. -/
def Obligations.LdiLoadsTheImmediate : Prop :=
  (∀ (s : State) (r v : Byte) (i : Fin 8), r.toNat = i.val →
    ∃ t, exec (.ldi r v) s = .next t ∧ t.reg i = v ∧ (∀ j, j ≠ i → t.reg j = s.reg j) ∧ t.pc = s.pc + 3 ∧
      t.mem = s.mem ∧ t.sp = s.sp ∧ t.status = s.status ∧ t.out = s.out) ∧
  (∀ (s : State) (r v : Byte), 8 ≤ r.toNat →
    exec (.ldi r v) s =
      .next { s with status := .faulted { pc := s.pc, fault := .outOfBounds .reg r.toNat } }) ∧
  (∀ r v : Byte, encode (.ldi r v) = [0x82, r, v] ∧ decode [0x82, r, v] = .ok (.ldi r v, [])) ∧
  (∀ s : State, s.status = .running → s.mem.read? s.pc = some 0x82 → (s.pc = 254 ∨ s.pc = 255) →
    step s = .next { s with status := .faulted { pc := s.pc, fault := .outOfBounds .mem 256 } })

/-- R101, PRN: the register's value is appended to `out` and `pc` moves by 2, with no register, cell or `sp` changed;
an index in 8..255 raises `OutOfBounds(REG, r)`; the encoding is 0x47, r; starting at 255 the operand fetch faults. -/
def Obligations.PrnEmitsTheRegister : Prop :=
  (∀ (s : State) (r : Byte) (i : Fin 8), r.toNat = i.val →
    ∃ t, exec (.prn r) s = .next t ∧ t.out = s.out ++ [s.reg i] ∧ t.pc = s.pc + 2 ∧ (∀ j, t.reg j = s.reg j) ∧
      t.mem = s.mem ∧ t.sp = s.sp ∧ t.status = s.status) ∧
  (∀ (s : State) (r : Byte), 8 ≤ r.toNat →
    exec (.prn r) s =
      .next { s with status := .faulted { pc := s.pc, fault := .outOfBounds .reg r.toNat } }) ∧
  (∀ r : Byte, encode (.prn r) = [0x47, r] ∧ decode [0x47, r] = .ok (.prn r, [])) ∧
  (∀ s : State, s.status = .running → s.mem.read? s.pc = some 0x47 → s.pc = 255 →
    step s = .next { s with status := .faulted { pc := s.pc, fault := .outOfBounds .mem 256 } })

/-- R115, MUL: register `a` takes the product modulo 256 of the two values read before, squared when `a = b`, and `pc`
moves by 3, with every other register, `x[b]` among them when `b` is not `a`, and all else unchanged; a bad operand A,
then a bad operand B, raises `OutOfBounds(REG, ·)`; the encoding is 0xA2, a, b; starting at 254 or 255 the operand
fetch faults. -/
def Obligations.MulMultipliesRegisters : Prop :=
  (∀ (s : State) (a b : Byte) (i j : Fin 8), a.toNat = i.val → b.toNat = j.val →
    ∃ t, exec (.mul a b) s = .next t ∧ (t.reg i).toNat = (s.reg i).toNat * (s.reg j).toNat % 256 ∧
      (∀ k, k ≠ i → t.reg k = s.reg k) ∧ t.pc = s.pc + 3 ∧
      t.mem = s.mem ∧ t.sp = s.sp ∧ t.status = s.status ∧ t.out = s.out) ∧
  (∀ (s : State) (a b : Byte), 8 ≤ a.toNat →
    exec (.mul a b) s =
      .next { s with status := .faulted { pc := s.pc, fault := .outOfBounds .reg a.toNat } }) ∧
  (∀ (s : State) (a b : Byte), a.toNat < 8 → 8 ≤ b.toNat →
    exec (.mul a b) s =
      .next { s with status := .faulted { pc := s.pc, fault := .outOfBounds .reg b.toNat } }) ∧
  (∀ a b : Byte, encode (.mul a b) = [0xA2, a, b] ∧ decode [0xA2, a, b] = .ok (.mul a b, [])) ∧
  (∀ s : State, s.status = .running → s.mem.read? s.pc = some 0xA2 → (s.pc = 254 ∨ s.pc = 255) →
    step s = .next { s with status := .faulted { pc := s.pc, fault := .outOfBounds .mem 256 } })

/-- R130, PUSH: with room, `sp` is decremented, the register's value is stored at the new `sp` (`s.pushAddr`), every
other cell reads as before, and `pc` moves by 2; a bad index, then `sp = 0` (decision D9), raises its fault; the
encoding is 0x45, r (the model's presumption, log entry 1); starting at 255 the operand fetch faults. -/
def Obligations.PushStoresTheRegister : Prop :=
  (∀ (s : State) (r : Byte) (i : Fin 8), s.Inv → r.toNat = i.val → s.sp ≠ 0 →
    ∃ t, exec (.push r) s = .next t ∧ t.sp = s.sp - 1 ∧ s.pushAddr = t.sp ∧
      t.mem.read? s.pushAddr = some (s.reg i) ∧ (∀ a, a ≠ s.pushAddr → t.mem.read? a = s.mem.read? a) ∧
      t.pc = s.pc + 2 ∧ (∀ j, t.reg j = s.reg j) ∧ t.status = s.status ∧ t.out = s.out) ∧
  (∀ (s : State) (r : Byte), 8 ≤ r.toNat →
    exec (.push r) s =
      .next { s with status := .faulted { pc := s.pc, fault := .outOfBounds .reg r.toNat } }) ∧
  (∀ (s : State) (r : Byte), r.toNat < 8 → s.sp = 0 →
    exec (.push r) s =
      .next { s with status := .faulted { pc := s.pc, fault := .outOfBounds .mem (-1) } }) ∧
  (∀ r : Byte, encode (.push r) = [0x45, r] ∧ decode [0x45, r] = .ok (.push r, [])) ∧
  (∀ s : State, s.status = .running → s.mem.read? s.pc = some 0x45 → s.pc = 255 →
    step s = .next { s with status := .faulted { pc := s.pc, fault := .outOfBounds .mem 256 } })

/-- R131, POP: on a stack that is not empty the register takes the byte at `sp`, `sp` is incremented, no cell changes
(the popped one is not cleared) and `pc` moves by 2; a bad index raises its fault even on an empty stack; on an empty
stack POP raises `StackUnderflow(POP)` (decision D7), or under `POP_ON_EMPTY = noop` changes only `pc`; the encoding
is 0x46, r (the model's presumption, log entry 1); starting at 255 the operand fetch faults. -/
def Obligations.PopLoadsTheStackTop : Prop :=
  (∀ (s : State) (r : Byte) (i : Fin 8), r.toNat = i.val → s.sp < 255 →
    ∃ t, exec (.pop r) s = .next t ∧ s.mem.read? s.sp = some (t.reg i) ∧ (∀ j, j ≠ i → t.reg j = s.reg j) ∧
      t.sp = s.sp + 1 ∧ t.pc = s.pc + 2 ∧ t.mem = s.mem ∧ t.status = s.status ∧ t.out = s.out) ∧
  (∀ (s : State) (r : Byte), 8 ≤ r.toNat →
    exec (.pop r) s =
      .next { s with status := .faulted { pc := s.pc, fault := .outOfBounds .reg r.toNat } }) ∧
  (∀ (s : State) (r : Byte), r.toNat < 8 → s.sp = 255 →
    exec (.pop r) s =
      .next { s with status := .faulted { pc := s.pc, fault := .stackUnderflow .pop } }) ∧
  (∀ (c : Config) (s : State) (r : Byte), c.popOnEmpty = .noop → r.toNat < 8 → s.sp = 255 →
    execUnder c (.pop r) s = .next { s with pc := s.pc + 2 }) ∧
  (∀ (c : Config) (s : State) (r : Byte), s.sp ≠ 255 ∨ c.popOnEmpty = .fault →
    execUnder c (.pop r) s = exec (.pop r) s) ∧
  (∀ r : Byte, encode (.pop r) = [0x46, r] ∧ decode [0x46, r] = .ok (.pop r, [])) ∧
  (∀ s : State, s.status = .running → s.mem.read? s.pc = some 0x46 → s.pc = 255 →
    step s = .next { s with status := .faulted { pc := s.pc, fault := .outOfBounds .mem 256 } })

/-- R140, CALL: with room, the register's value is pushed (`observed`) or the address after the CALL is
(`conventional`), at `s.pushAddr`, and `pc` becomes the register's value, with no register and no other cell changed;
the faults in their order: bad index, return address not storable (`conventional` only), `sp = 0` (decisions D6, D9,
D19); the encoding is 0x50, r (the model's presumption, log entry 1); starting at 255 the operand fetch faults. -/
def Obligations.CallPushesAndJumps : Prop :=
  (∀ (s : State) (r : Byte) (i : Fin 8), s.Inv → r.toNat = i.val → s.sp ≠ 0 →
    ∃ t, exec (.call r) s = .next t ∧ t.pc = (s.reg i).toNat ∧ t.sp = s.sp - 1 ∧ s.pushAddr = t.sp ∧
      t.mem.read? s.pushAddr = some (s.reg i) ∧ (∀ a, a ≠ s.pushAddr → t.mem.read? a = s.mem.read? a) ∧
      (∀ j, t.reg j = s.reg j) ∧ t.status = s.status ∧ t.out = s.out) ∧
  (∀ (c : Config) (s : State) (r : Byte) (i : Fin 8), c.callLinkage = .conventional → s.Inv → r.toNat = i.val →
    s.sp ≠ 0 → s.pc + 2 ≤ 255 →
    ∃ t, execUnder c (.call r) s = .next t ∧ t.pc = (s.reg i).toNat ∧ t.sp = s.sp - 1 ∧ s.pushAddr = t.sp ∧
      (t.mem.read? s.pushAddr).map (·.toNat) = some (s.pc + 2) ∧
      (∀ a, a ≠ s.pushAddr → t.mem.read? a = s.mem.read? a) ∧
      (∀ j, t.reg j = s.reg j) ∧ t.status = s.status ∧ t.out = s.out) ∧
  (∀ (c : Config) (s : State) (r : Byte), 8 ≤ r.toNat →
    execUnder c (.call r) s =
      .next { s with status := .faulted { pc := s.pc, fault := .outOfBounds .reg r.toNat } }) ∧
  (∀ (c : Config) (s : State) (r : Byte), c.callLinkage = .conventional → r.toNat < 8 → s.pc = 254 →
    execUnder c (.call r) s =
      .next { s with status := .faulted { pc := s.pc, fault := .outOfBounds .mem 256 } }) ∧
  (∀ (c : Config) (s : State) (r : Byte), c.callLinkage = .observed ∨ s.pc + 2 ≤ 255 → r.toNat < 8 → s.sp = 0 →
    execUnder c (.call r) s =
      .next { s with status := .faulted { pc := s.pc, fault := .outOfBounds .mem (-1) } }) ∧
  (∀ (c : Config) (s : State) (r : Byte), c.callLinkage = .observed →
    execUnder c (.call r) s = exec (.call r) s) ∧
  (∀ r : Byte, encode (.call r) = [0x50, r] ∧ decode [0x50, r] = .ok (.call r, [])) ∧
  (∀ s : State, s.status = .running → s.mem.read? s.pc = some 0x50 → s.pc = 255 →
    step s = .next { s with status := .faulted { pc := s.pc, fault := .outOfBounds .mem 256 } })

/-- R141, RET: on a stack that is not empty `pc` takes the byte at `sp` and `sp` is incremented, with nothing else
changed; on an empty stack RET raises `StackUnderflow(RET)` (decision D8); both are the same under every
configuration; the encoding is 0x11 (the model's presumption, log entry 1); a RET at 255 reads nothing beyond it. -/
def Obligations.RetPopsThePc : Prop :=
  (∀ s : State, s.sp < 255 →
    ∃ t, exec .ret s = .next t ∧ (s.mem.read? s.sp).map (·.toNat) = some t.pc ∧ t.sp = s.sp + 1 ∧ t.mem = s.mem ∧
      (∀ j, t.reg j = s.reg j) ∧ t.status = s.status ∧ t.out = s.out) ∧
  (∀ s : State, s.sp = 255 →
    exec .ret s = .next { s with status := .faulted { pc := s.pc, fault := .stackUnderflow .ret } }) ∧
  (∀ (c : Config) (s : State), execUnder c .ret s = exec .ret s) ∧
  (encode .ret = [0x11] ∧ decode [0x11] = .ok (.ret, [])) ∧
  (∀ s : State, s.status = .running → s.pc = 255 → s.mem.read? 255 = some 0x11 → step s = exec .ret s)

/-- R150, HLT: in every state `status` becomes `Halted` and nothing else changes, `pc` included (decision D10); the
encoding is 0x01; a HLT at 255 reads nothing beyond it; no later step changes anything. -/
def Obligations.HltHalts : Prop :=
  (∀ s : State, exec .hlt s = .next { s with status := .halted }) ∧
  (∀ (s t : State) (n : Nat), exec .hlt s = .next t → core.run n t = .next t) ∧
  (encode .hlt = [0x01] ∧ decode [0x01] = .ok (.hlt, [])) ∧
  (∀ s : State, s.status = .running → s.pc = 255 → s.mem.read? 255 = some 0x01 →
    step s = .next { s with status := .halted })

/-! ### Frames -/

/-- R22, R27, R32, R41: what the instructions that store nothing leave unchanged when `exec` answers a next state,
faults included: every cell; every register but the destination; `sp`, except for POP and RET; `out`, except for PRN.
-/
def Obligations.FrameOfInstructionsThatStoreNothing : Prop :=
  ∀ (i : Instr) (s t : State), i.kind ∈ [Kind.hlt, .ldi, .prn, .mul, .pop, .ret] → exec i s = .next t →
    (∀ a, t.mem.read? a = s.mem.read? a) ∧
    (∀ j : Fin 8, destination i ≠ some (regByte j) → t.reg j = s.reg j) ∧
    (i.kind ≠ .pop → i.kind ≠ .ret → t.sp = s.sp) ∧
    (i.kind ≠ .prn → t.out = s.out) ∧
    (i.kind ≠ .hlt → t.status = s.status ∨ ∃ f, t.status = .faulted { pc := s.pc, fault := f })

/-- R41, R130, R140: what PUSH and CALL leave unchanged when `exec` answers a next state: every cell but the one at
`s.pushAddr`, the address they compute, every register, and `out`; `sp` changes only by one. -/
def Obligations.FrameOfPushAndCall : Prop :=
  ∀ (i : Instr) (s t : State), i.kind ∈ [Kind.push, .call] → exec i s = .next t →
    (∀ a, a ≠ s.pushAddr → t.mem.read? a = s.mem.read? a) ∧
    (∀ j : Fin 8, t.reg j = s.reg j) ∧ t.out = s.out ∧ (t.sp = s.sp ∨ t.sp + 1 = s.sp) ∧
    (t.status = s.status ∨ ∃ f, t.status = .faulted { pc := s.pc, fault := f })

/-! ### The ALU, the accesses, the stack -/

/-- R111, R112 (the width is the spec's decision D2): the ALU's product and sum modulo 256, commutative, with the
corner cases the rules give. -/
def Obligations.AluWrapsModulo256 : Prop :=
  (∀ a b : Byte, (alu .mul a b).toNat = a.toNat * b.toNat % 256 ∧ alu .mul a b = alu .mul b a) ∧
  (∀ a b : Byte, (alu .add a b).toNat = (a.toNat + b.toNat) % 256 ∧ alu .add a b = alu .add b a) ∧
  (∀ b : Byte, alu .mul 0 b = 0 ∧ alu .mul 1 b = b) ∧
  alu .mul 16 16 = 0 ∧ alu .mul 255 255 = 1 ∧ alu .mul 15 15 = 225 ∧ alu .mul 225 225 = 193 ∧
  alu .add 255 1 = 0 ∧ alu .add 200 100 = 44 ∧ alu .add 0 0 = 0

/-- R9: `MemRead` and `MemWrite` inside 0..255 read and replace that cell alone, and outside they raise
`OutOfBounds(MEM, addr)` and access nothing. -/
def Obligations.MemoryAccessIsChecked : Prop :=
  (∀ (s : State) (addr : Int), 0 ≤ addr ∧ addr ≤ 255 → ∃ v, s.memRead addr = .ok v ∧ s.mem.read? addr.toNat = some v) ∧
  (∀ (s : State) (addr : Int) (v : Byte), s.Inv → 0 ≤ addr ∧ addr ≤ 255 →
    ∃ t, s.memWrite addr v = .ok t ∧ t.mem.read? addr.toNat = some v ∧
      (∀ a, a ≠ addr.toNat → t.mem.read? a = s.mem.read? a) ∧
      t.x = s.x ∧ t.pc = s.pc ∧ t.sp = s.sp ∧ t.status = s.status ∧ t.out = s.out) ∧
  (∀ (s : State) (addr : Int) (v : Byte), ¬(0 ≤ addr ∧ addr ≤ 255) →
    s.memRead addr = .error (.outOfBounds .mem addr) ∧ s.memWrite addr v = .error (.outOfBounds .mem addr))

/-- R10 (and R23): a register read or write with an index 0..7 reads or replaces that register alone, and with an
index 8..255 raises `OutOfBounds(REG, i)`; the byte is not masked. -/
def Obligations.RegisterAccessIsChecked : Prop :=
  (∀ (s : State) (r v : Byte) (i : Fin 8), r.toNat = i.val → s.readReg r = .ok (s.reg i) ∧
    ∃ t, s.writeReg r v = .ok t ∧ t.reg i = v ∧ (∀ j, j ≠ i → t.reg j = s.reg j) ∧
      t.mem = s.mem ∧ t.pc = s.pc ∧ t.sp = s.sp ∧ t.status = s.status ∧ t.out = s.out) ∧
  (∀ (s : State) (r v : Byte), 8 ≤ r.toNat →
    s.readReg r = .error (.outOfBounds .reg r.toNat) ∧ s.writeReg r v = .error (.outOfBounds .reg r.toNat))

/-- R132, the stack law: pushing any registers' values with room for all of them and then popping as many, into any
registers, yields the values in reverse order, with `sp` back where it was and no fault taken. -/
def Obligations.PopsReturnThePushesReversed : Prop :=
  ∀ (pushed popped : List (Fin 8)) (s : State), s.Inv → s.status = .running → pushed.length ≤ s.sp →
    popped.length = pushed.length →
    ∃ t u, execAll (pushed.map fun i => .push (regByte i)) s = .next t ∧ t.status = .running ∧
      popValues popped t = some ((pushed.map s.reg).reverse, u) ∧ u.sp = s.sp ∧ u.status = .running

/-- R140, R141 and their corner cases: a RET right after a CALL goes to the CALL's own target under the observed
linkage, and to the address after the CALL under the conventional one; `sp` is back where it was. -/
def Obligations.RetAfterCallFollowsTheLinkage : Prop :=
  ∀ (c : Config) (s t : State) (i : Fin 8), s.Inv → s.status = .running →
    execUnder c (.call (regByte i)) s = .next t → t.status = .running →
    ∃ u, execUnder c .ret t = .next u ∧ u.status = .running ∧ u.sp = s.sp ∧
      (c.callLinkage = .observed → u.pc = t.pc ∧ u.pc = (s.reg i).toNat) ∧
      (c.callLinkage = .conventional → u.pc = s.pc + 2)

/-! ### Configurations -/

/-- R6 (its values are decisions D6, D7; log entry 1): this hardware's step and execution are those of the
configuration the table gives; only POP and CALL depend on `POP_ON_EMPTY` and `CALL_LINKAGE`. -/
def Obligations.HardwareIsOneConfiguration : Prop :=
  (∀ s : State, step s = stepUnder Config.hardware s) ∧
  (∀ (i : Instr) (s : State), exec i s = execUnder Config.hardware i s) ∧
  (∀ (c d : Config) (i : Instr) (s : State), i.kind ≠ .pop → i.kind ≠ .call →
    execUnder c i s = execUnder d i s) ∧
  Config.hardware.callLinkage = .observed ∧ Config.hardware.popOnEmpty = .fault

/-! ### Encoding -/

/-- R61, R64, R73: under every configuration R73 allows, decoding an instruction's bytes gives it back, with every
operand at every value (R67), and leaves the bytes that follow. -/
def Obligations.DecodeOfEncode : Prop :=
  ∀ (c : Config) (i : Instr) (rest : List Byte), c.wf → decodeUnder c (encodeUnder c i ++ rest) = .ok (i, rest)

/-- R63, R66: the other direction: bytes that decode are exactly the encoding of what they decode to, then the rest.
-/
def Obligations.EncodeOfDecode : Prop :=
  ∀ (c : Config) (bytes rest : List Byte) (i : Instr), decodeUnder c bytes = .ok (i, rest) →
    bytes = encodeUnder c i ++ rest

/-- R68: the length is `1 + arity`, known from the opcode byte alone, and the decoder uses no byte beyond it; an F0
instruction at 255 touches no address beyond 255. -/
def Obligations.LengthIsKnownFromTheOpcode : Prop :=
  (∀ (c : Config) (op : Byte) (k : Kind) (operands : List Byte), c.kindOf op = some k →
    operands.length = k.arity →
    ∃ i, i.kind = k ∧ i.operands = operands ∧ ∀ tail, decodeUnder c (op :: operands ++ tail) = .ok (i, tail)) ∧
  (∀ (c : Config) (op : Byte) (k : Kind) (bytes : List Byte), c.kindOf op = some k → bytes.length < k.arity →
    decodeUnder c (op :: bytes) = .error (.missingOperand (bytes.length + 1))) ∧
  (∀ (s : State) (op : Byte) (k : Kind), s.status = .running → s.pc = 255 → s.mem.read? 255 = some op →
    Config.hardware.kindOf op = some k → k.arity = 0 → ∃ i, i.kind = k ∧ step s = exec i s)

/-- R64: some words written out from the opcode table's encodings decode to what they stand for. The bytes of PUSH,
POP, CALL and RET are the model's presumption (log entry 1). -/
def Obligations.WordsOfTheTableDecode : Prop :=
  decode [0b00000001] = .ok (.hlt, []) ∧
  decode [0b10000010, 0b00000000, 0b00001000] = .ok (.ldi 0 8, []) ∧
  decode [0b01000111, 0b00000000] = .ok (.prn 0, []) ∧
  decode [0b10100010, 0b00000000, 0b00000001] = .ok (.mul 0 1, []) ∧
  decode [0b01000101, 0b00000011] = .ok (.push 3, []) ∧
  decode [0b01000110, 0b00000011] = .ok (.pop 3, []) ∧
  decode [0b01010000, 0b00000001] = .ok (.call 1, []) ∧
  decode [0b00010001] = .ok (.ret, [])

/-- R64, R65, R66, R73: this hardware's opcode map is one R73 allows, every byte value but the eight of R64 is
illegal, 0x00 and 0xA0 among them, and bits 7 and 6 of every opcode are its arity. The bytes of PUSH, POP, CALL and
RET are the model's presumption (log entry 1). -/
def Obligations.OpcodeMapOfTheHardware : Prop :=
  Config.hardware.wf = true ∧
  (∀ b : Byte, Config.hardware.kindOf b = none ↔
    b ∉ [0x01#8, 0x82#8, 0x47#8, 0xA2#8, 0x45#8, 0x46#8, 0x50#8, 0x11#8]) ∧
  decode [0x00] = .error (.illegalOpcode 0x00) ∧ decode [0xA0] = .error (.illegalOpcode 0xA0) ∧
  (∀ k : Kind, (Config.hardware.opcodeOf k).toNat / 64 = k.arity)

/-- The model's own aid: a table word placed by `withFetchWord` is what the very next step executes (log entry 7). -/
def Obligations.PlacedWordIsExecutedNext : Prop :=
  ∀ (s : State) (nbits w : Nat) (i : Instr), s.Inv → s.pc ≤ 253 → decodeTableWord nbits w = some i →
    step (s.withFetchWord nbits w) = exec i (s.withFetchWord nbits w)

/-- R70: an instruction whose register operands name registers is written as a line that reads back as it. The exact
spelling accepted is decision D17 and log entry 10. -/
def Obligations.AssemblyReadsBack : Prop :=
  ∀ i : Instr, i.wf → ∃ line, assembly i = some line ∧ assemble line = some i

/-! ### The block's step -/

/-- R34, R86: the input `step` is one step of the core; it is accepted at every time, and from then on the block is
past its first step (log entry 7). -/
def Obligations.StepInputIsOneStepOfTheCore : Prop :=
  ∀ b : Block, ∃ t, step b.state = .next t ∧ applyInput .step b = .next { state := t, phase := .stepping }
end

