-- ==== Sys2Proof/Laws/Memory.lean ====
section
/-! SUPPORT. The laws of memory: a read after a write, and that every memory operation keeps the canonical form. -/

namespace Sys2Proof.Machine

@[simp] theorem Memory.read_nil (a : Nat) : Memory.read [] a = Memory.unlisted := rfl

theorem Memory.read_cons (k : Nat) (w : Byte) (rest : Memory) (a : Nat) :
    Memory.read ((k, w) :: rest) a = if a = k then w else Memory.read rest a := rfl

theorem Memory.wf_nil : Memory.wf [] := by
  simp [Memory.wf]

/-- The tail of a canonical memory is canonical. -/
theorem Memory.wf_tail {cell : Host.Cell} {rest : Memory} (h : Memory.wf (cell :: rest)) : Memory.wf rest :=
  ⟨(List.pairwise_cons.mp h.1).2, fun c hc => h.2 c (List.mem_cons_of_mem _ hc)⟩

/-- An address below every listed one reads as an unlisted address. -/
theorem Memory.read_below {m : Memory} {a : Nat} (h : ∀ cell ∈ m, a < cell.1) : m.read a = Memory.unlisted := by
  induction m with
  | nil => rfl
  | cons cell rest ih =>
    obtain ⟨k, w⟩ := cell
    have hk : a < k := h (k, w) (List.mem_cons_self ..)
    rw [Memory.read_cons, if_neg (Nat.ne_of_lt hk)]
    exact ih fun c hc => h c (List.mem_cons_of_mem _ hc)

/-- A write leaves every other address alone, in any memory. -/
theorem Memory.read_write_other (m : Memory) {a b : Nat} (v : Byte) (h : b ≠ a) :
    (m.write a v).read b = m.read b := by
  induction m with
  | nil => by_cases hv : v = Memory.unlisted <;> simp [Memory.write, Memory.read, hv, h]
  | cons cell rest ih =>
    obtain ⟨k, w⟩ := cell
    simp only [Memory.write]
    split
    · split <;> simp [Memory.read, h]
    · split
      · rename_i hak
        subst hak
        split <;> simp [Memory.read, h]
      · simp [Memory.read, ih]

/-- A canonical memory reads the byte just written. -/
theorem Memory.read_write_same {m : Memory} (hm : m.wf) (a : Nat) (v : Byte) : (m.write a v).read a = v := by
  induction m with
  | nil => by_cases hv : v = Memory.unlisted <;> simp [Memory.write, Memory.read, hv]
  | cons cell rest ih =>
    obtain ⟨k, w⟩ := cell
    have habove : ∀ c ∈ rest, k < c.1 := (List.pairwise_cons.mp hm.1).1
    simp only [Memory.write]
    split
    · rename_i hak
      split
      · rename_i hv
        rw [hv, Memory.read_below]
        intro c hc
        rcases List.mem_cons.mp hc with rfl | hc
        · exact hak
        · exact Nat.lt_trans hak (habove c hc)
      · simp [Memory.read]
    · split
      · rename_i hak
        split
        · rename_i hv
          rw [hv, Memory.read_below]
          intro c hc
          exact hak ▸ habove c hc
        · simp [Memory.read]
      · rename_i hak
        rw [Memory.read_cons, if_neg hak, ih (Memory.wf_tail hm)]

/-- Every pair a write leaves is the new one or was there before. -/
theorem Memory.mem_write {m : Memory} {a : Nat} {v : Byte} {cell : Host.Cell} (h : cell ∈ m.write a v) :
    (cell = (a, v) ∧ v ≠ Memory.unlisted) ∨ cell ∈ m := by
  induction m with
  | nil =>
    by_cases hv : v = Memory.unlisted <;> simp_all [Memory.write]
  | cons head rest ih =>
    obtain ⟨k, w⟩ := head
    simp only [Memory.write] at h
    split at h
    · split at h
      · exact .inr h
      · rcases List.mem_cons.mp h with rfl | h
        · exact .inl ⟨rfl, ‹_›⟩
        · exact .inr h
    · split at h
      · split at h
        · exact .inr (List.mem_cons_of_mem _ h)
        · rcases List.mem_cons.mp h with rfl | h
          · exact .inl ⟨rfl, ‹_›⟩
          · exact .inr (List.mem_cons_of_mem _ h)
      · rcases List.mem_cons.mp h with rfl | h
        · exact .inr (List.mem_cons_self ..)
        · exact (ih h).imp_right (List.mem_cons_of_mem _)

/-- A write inside the address space keeps the canonical form. -/
theorem Memory.write_wf {m : Memory} (hm : m.wf) {a : Nat} (ha : a < memCapacity) (v : Byte) :
    (m.write a v).wf := by
  refine ⟨?_, fun cell hc => ?_⟩
  · induction m with
    | nil => by_cases hv : v = Memory.unlisted <;> simp [Memory.write, hv]
    | cons head rest ih =>
      obtain ⟨k, w⟩ := head
      have habove : ∀ c ∈ rest, k < c.1 := (List.pairwise_cons.mp hm.1).1
      have hrest : rest.Pairwise fun p q => p.1 < q.1 := (List.pairwise_cons.mp hm.1).2
      simp only [Memory.write]
      split
      · rename_i hak
        split
        · exact hm.1
        · refine List.pairwise_cons.mpr ⟨fun c hc => ?_, hm.1⟩
          rcases List.mem_cons.mp hc with rfl | hc
          · exact hak
          · exact Nat.lt_trans hak (habove c hc)
      · split
        · rename_i hak
          split
          · exact hrest
          · exact List.pairwise_cons.mpr ⟨fun c hc => hak ▸ habove c hc, hrest⟩
        · refine List.pairwise_cons.mpr ⟨fun c hc => ?_, ih (Memory.wf_tail hm)⟩
          rcases Memory.mem_write hc with ⟨rfl, -⟩ | hc
          · simp only; omega
          · exact habove c hc
  · rcases Memory.mem_write hc with ⟨rfl, hv⟩ | hc
    · exact ⟨ha, hv⟩
    · exact hm.2 cell hc

/-- Laying bytes down keeps the canonical form. -/
theorem Memory.placeBytes_wf {m : Memory} (hm : m.wf) (a : Nat) (bytes : List Byte) : (m.placeBytes a bytes).wf := by
  induction bytes generalizing m a with
  | nil => exact hm
  | cons b rest ih =>
    simp only [Memory.placeBytes]
    split
    · rename_i ha
      exact ih (Memory.write_wf hm ha b) _
    · exact ih hm _

/-- The load of an image keeps the canonical form. -/
theorem Memory.load_wf {m : Memory} (hm : m.wf) (image : List Nat) : (m.load image).wf :=
  Memory.placeBytes_wf hm 0 _

/-- A byte below the place where bytes are laid reads as before. -/
theorem Memory.placeBytes_read_below (m : Memory) (a : Nat) (bytes : List Byte) {b : Nat} (h : b < a) :
    (m.placeBytes a bytes).read b = m.read b := by
  induction bytes generalizing m a with
  | nil => rfl
  | cons v rest ih =>
    rw [Memory.placeBytes, ih _ _ (Nat.lt_succ_of_lt h)]
    split
    · exact Memory.read_write_other m v (Nat.ne_of_lt h)
    · rfl

/-- A canonical memory reads the bytes laid down, where they have a cell. -/
theorem Memory.placeBytes_read {m : Memory} (hm : m.wf) (a : Nat) (bytes : List Byte) (k : Nat)
    (hk : k < bytes.length) (ha : a + k < memCapacity) : (m.placeBytes a bytes).read (a + k) = bytes[k] := by
  induction bytes generalizing m a k with
  | nil => exact absurd hk (Nat.not_lt_zero k)
  | cons v rest ih =>
    rw [Memory.placeBytes, if_pos (by omega)]
    cases k with
    | zero =>
      change ((m.write a v).placeBytes (a + 1) rest).read a = v
      rw [Memory.placeBytes_read_below _ (a + 1) _ (Nat.lt_succ_self a)]
      exact Memory.read_write_same hm a v
    | succ k =>
      have := ih (Memory.write_wf hm (by omega : a < memCapacity) v) (a + 1) k (by simpa using hk) (by omega)
      rw [show a + (k + 1) = a + 1 + k by omega, this]
      rfl

/-- An address above the bytes laid down reads as before. -/
theorem Memory.placeBytes_read_above (m : Memory) (a : Nat) (bytes : List Byte) {b : Nat}
    (h : a + bytes.length ≤ b) : (m.placeBytes a bytes).read b = m.read b := by
  induction bytes generalizing m a with
  | nil => rfl
  | cons v rest ih =>
    simp only [List.length_cons] at h
    rw [Memory.placeBytes, ih _ _ (by omega)]
    split
    · exact Memory.read_write_other m v (by omega)
    · rfl

/-! ### The checked read -/

theorem Memory.read?_inside (m : Memory) {a : Nat} (h : a < memCapacity) : m.read? a = some (m.read a) :=
  if_pos h

theorem Memory.read?_outside (m : Memory) {a : Nat} (h : memCapacity ≤ a) : m.read? a = none :=
  if_neg (Nat.not_lt.mpr h)

/-- A checked read answers exactly an address inside and its byte. -/
theorem Memory.read?_eq_some {m : Memory} {a : Nat} {b : Byte} :
    m.read? a = some b ↔ a < memCapacity ∧ m.read a = b := by
  unfold Memory.read?
  split <;> simp_all

/-- A checked read after a write to the same address of a canonical memory. -/
theorem Memory.read?_write_same {m : Memory} (hm : m.wf) {a : Nat} (ha : a < memCapacity) (v : Byte) :
    (m.write a v).read? a = some v :=
  Memory.read?_eq_some.mpr ⟨ha, Memory.read_write_same hm a v⟩

/-- A checked read after a write elsewhere, in any memory. -/
theorem Memory.read?_write_other (m : Memory) {a b : Nat} (v : Byte) (h : b ≠ a) :
    (m.write a v).read? b = m.read? b := by
  simp only [Memory.read?, Memory.read_write_other m v h]

end Sys2Proof.Machine
end

