-- ==== Sys2Proof/Laws/State.lean ====
section
/-! SUPPORT. One lemma for each field and each update of State, so that no proof unfolds a record update. -/

namespace Sys2Proof.Machine

@[simp] theorem State.advance_mem (s : State) (k : Kind) : (s.advance k).mem = s.mem := rfl
@[simp] theorem State.advance_x (s : State) (k : Kind) : (s.advance k).x = s.x := rfl
@[simp] theorem State.advance_pc (s : State) (k : Kind) : (s.advance k).pc = s.pc + k.length := rfl
@[simp] theorem State.advance_sp (s : State) (k : Kind) : (s.advance k).sp = s.sp := rfl
@[simp] theorem State.advance_status (s : State) (k : Kind) : (s.advance k).status = s.status := rfl
@[simp] theorem State.advance_out (s : State) (k : Kind) : (s.advance k).out = s.out := rfl

@[simp] theorem State.jump_mem (s : State) (b : Byte) : (s.jump b).mem = s.mem := rfl
@[simp] theorem State.jump_x (s : State) (b : Byte) : (s.jump b).x = s.x := rfl
@[simp] theorem State.jump_pc (s : State) (b : Byte) : (s.jump b).pc = b.toNat := rfl
@[simp] theorem State.jump_sp (s : State) (b : Byte) : (s.jump b).sp = s.sp := rfl
@[simp] theorem State.jump_status (s : State) (b : Byte) : (s.jump b).status = s.status := rfl
@[simp] theorem State.jump_out (s : State) (b : Byte) : (s.jump b).out = s.out := rfl

@[simp] theorem State.emit_mem (s : State) (v : Byte) : (s.emit v).mem = s.mem := rfl
@[simp] theorem State.emit_x (s : State) (v : Byte) : (s.emit v).x = s.x := rfl
@[simp] theorem State.emit_pc (s : State) (v : Byte) : (s.emit v).pc = s.pc := rfl
@[simp] theorem State.emit_sp (s : State) (v : Byte) : (s.emit v).sp = s.sp := rfl
@[simp] theorem State.emit_status (s : State) (v : Byte) : (s.emit v).status = s.status := rfl
@[simp] theorem State.emit_out (s : State) (v : Byte) : (s.emit v).out = s.out ++ [v] := rfl

@[simp] theorem State.halt_mem (s : State) : (s.halt).mem = s.mem := rfl
@[simp] theorem State.halt_x (s : State) : (s.halt).x = s.x := rfl
@[simp] theorem State.halt_pc (s : State) : (s.halt).pc = s.pc := rfl
@[simp] theorem State.halt_sp (s : State) : (s.halt).sp = s.sp := rfl
@[simp] theorem State.halt_status (s : State) : (s.halt).status = .halted := rfl
@[simp] theorem State.halt_out (s : State) : (s.halt).out = s.out := rfl

@[simp] theorem State.setReg_mem (s : State) (i : Fin 8) (v : Byte) : (s.setReg i v).mem = s.mem := rfl
@[simp] theorem State.setReg_x (s : State) (i : Fin 8) (v : Byte) : (s.setReg i v).x = s.x.set i v := rfl
@[simp] theorem State.setReg_pc (s : State) (i : Fin 8) (v : Byte) : (s.setReg i v).pc = s.pc := rfl
@[simp] theorem State.setReg_sp (s : State) (i : Fin 8) (v : Byte) : (s.setReg i v).sp = s.sp := rfl
@[simp] theorem State.setReg_status (s : State) (i : Fin 8) (v : Byte) : (s.setReg i v).status = s.status := rfl
@[simp] theorem State.setReg_out (s : State) (i : Fin 8) (v : Byte) : (s.setReg i v).out = s.out := rfl

@[simp] theorem State.raise_mem (s : State) (f : Fault) : (s.raise f).mem = s.mem := rfl
@[simp] theorem State.raise_x (s : State) (f : Fault) : (s.raise f).x = s.x := rfl
@[simp] theorem State.raise_pc (s : State) (f : Fault) : (s.raise f).pc = s.pc := rfl
@[simp] theorem State.raise_sp (s : State) (f : Fault) : (s.raise f).sp = s.sp := rfl
@[simp] theorem State.raise_status (s : State) (f : Fault) :
    (s.raise f).status = .faulted { pc := s.pc, fault := f } := rfl
@[simp] theorem State.raise_out (s : State) (f : Fault) : (s.raise f).out = s.out := rfl

@[simp] theorem State.loadImage_mem (s : State) (image : List Nat) : (s.loadImage image).mem = s.mem.load image := rfl
@[simp] theorem State.loadImage_x (s : State) (image : List Nat) : (s.loadImage image).x = s.x := rfl
@[simp] theorem State.loadImage_pc (s : State) (image : List Nat) : (s.loadImage image).pc = s.pc := rfl
@[simp] theorem State.loadImage_sp (s : State) (image : List Nat) : (s.loadImage image).sp = s.sp := rfl
@[simp] theorem State.loadImage_status (s : State) (image : List Nat) : (s.loadImage image).status = s.status := rfl
@[simp] theorem State.loadImage_out (s : State) (image : List Nat) : (s.loadImage image).out = s.out := rfl

/-! ### Reading a register after an update -/

@[simp] theorem State.advance_reg (s : State) (k : Kind) (j : Fin 8) : (s.advance k).reg j = s.reg j := rfl
@[simp] theorem State.jump_reg (s : State) (b : Byte) (j : Fin 8) : (s.jump b).reg j = s.reg j := rfl
@[simp] theorem State.emit_reg (s : State) (v : Byte) (j : Fin 8) : (s.emit v).reg j = s.reg j := rfl
@[simp] theorem State.halt_reg (s : State) (j : Fin 8) : s.halt.reg j = s.reg j := rfl
@[simp] theorem State.raise_reg (s : State) (f : Fault) (j : Fin 8) : (s.raise f).reg j = s.reg j := rfl

@[simp] theorem State.loadImage_reg (s : State) (image : List Nat) (j : Fin 8) :
    (s.loadImage image).reg j = s.reg j := rfl

@[simp] theorem State.setReg_reg_same (s : State) (i : Fin 8) (v : Byte) : (s.setReg i v).reg i = v := by
  simp [State.reg, State.setReg]

theorem State.setReg_reg_other (s : State) {i j : Fin 8} (v : Byte) (h : j ≠ i) :
    (s.setReg i v).reg j = s.reg j := by
  have h' : i.val ≠ j.val := fun e => h (Fin.ext e.symm)
  simp [State.reg, State.setReg, h']

/-- A register after a write, either way. -/
theorem State.setReg_reg (s : State) (i j : Fin 8) (v : Byte) :
    (s.setReg i v).reg j = if j = i then v else s.reg j := by
  by_cases h : j = i
  · subst h; simp
  · simp [h, State.setReg_reg_other s v h]

/-! ### Every register at reset -/

@[simp] theorem State.reset_reg (i : Fin 8) : State.reset.reg i = 0 := by
  simp [State.reg, State.reset]

end Sys2Proof.Machine
end

