-- ==== Sys2Proof/Laws/Ops.lean ====
section
/-! SUPPORT. One lemma for each shared operation that says once all it can do; proofs cite these and unfold the
operation no more. -/

namespace Sys2Proof.Machine

/-! ### Operands -/

/-- A register operand 0..7 selects that register. -/
theorem regIndex_ok {r : Byte} {i : Fin 8} (h : r.toNat = i.val) : regIndex r = .ok i := by
  have hr : r.toNat < 8 := h ▸ i.isLt
  simp only [regIndex, dif_pos hr]
  exact congrArg _ (Fin.ext h)

/-- A register operand 8..255 is out of range. -/
theorem regIndex_error {r : Byte} (h : 8 ≤ r.toNat) : regIndex r = .error (.outOfBounds .reg r.toNat) :=
  dif_neg (Nat.not_lt.mpr h)

/-- All a register operand can do. -/
theorem regIndex_cases (r : Byte) :
    (∃ i : Fin 8, r.toNat = i.val ∧ regIndex r = .ok i) ∨
      (8 ≤ r.toNat ∧ regIndex r = .error (.outOfBounds .reg r.toNat)) := by
  by_cases h : r.toNat < 8
  · exact .inl ⟨⟨r.toNat, h⟩, rfl, regIndex_ok rfl⟩
  · exact .inr ⟨Nat.not_lt.mp h, regIndex_error (Nat.not_lt.mp h)⟩

/-- The byte that names a register selects it. -/
@[simp] theorem regByte_toNat (i : Fin 8) : (regByte i).toNat = i.val := by
  simp only [regByte, BitVec.toNat_ofNat]
  omega

theorem State.readReg_ok (s : State) {r : Byte} {i : Fin 8} (h : r.toNat = i.val) : s.readReg r = .ok (s.reg i) := by
  simp [State.readReg, regIndex_ok h, bind, Except.bind, pure, Except.pure]

theorem State.readReg_error (s : State) {r : Byte} (h : 8 ≤ r.toNat) :
    s.readReg r = .error (.outOfBounds .reg r.toNat) := by
  simp [State.readReg, regIndex_error h, bind, Except.bind]

theorem State.writeReg_ok (s : State) {r : Byte} {i : Fin 8} (v : Byte) (h : r.toNat = i.val) :
    s.writeReg r v = .ok (s.setReg i v) := by
  simp [State.writeReg, regIndex_ok h, bind, Except.bind, pure, Except.pure]

theorem State.writeReg_error (s : State) {r : Byte} (v : Byte) (h : 8 ≤ r.toNat) :
    s.writeReg r v = .error (.outOfBounds .reg r.toNat) := by
  simp [State.writeReg, regIndex_error h, bind, Except.bind]

/-! ### The stack -/

/-- A push with room: the byte at the address below `sp`, which becomes `sp`. -/
theorem State.pushByte_ok (s : State) (v : Byte) (h0 : s.sp ≠ 0) (h : s.sp ≤ memCapacity) :
    s.pushByte v = .ok { s with sp := s.sp - 1, mem := s.mem.write (s.sp - 1) v } := by
  have hi : (0 : Int) ≤ (s.sp - 1 : Nat) ∧ ((s.sp - 1 : Nat) : Int) ≤ 255 := by
    constructor <;> (simp only [memCapacity] at h; omega)
  simp only [State.pushByte, if_neg h0, State.memWrite, State.pushAddr]
  exact if_pos hi

theorem State.pushByte_full (s : State) (v : Byte) (h0 : s.sp = 0) :
    s.pushByte v = .error (.outOfBounds .mem (-1)) :=
  if_pos h0

/-- All a push can do. -/
theorem State.pushByte_cases (s : State) (v : Byte) :
    (s.sp ≠ 0 ∧ s.sp ≤ memCapacity ∧
      s.pushByte v = .ok { s with sp := s.sp - 1, mem := s.mem.write (s.sp - 1) v }) ∨
    (s.sp = 0 ∧ s.pushByte v = .error (.outOfBounds .mem (-1))) ∨
    (memCapacity < s.sp ∧ s.pushByte v = .error (.outOfBounds .mem (s.sp - 1 : Nat))) := by
  by_cases h0 : s.sp = 0
  · exact .inr (.inl ⟨h0, s.pushByte_full v h0⟩)
  · by_cases h : s.sp ≤ memCapacity
    · exact .inl ⟨h0, h, s.pushByte_ok v h0 h⟩
    · refine .inr (.inr ⟨Nat.not_le.mp h, ?_⟩)
      have hi : ¬((0 : Int) ≤ (s.sp - 1 : Nat) ∧ ((s.sp - 1 : Nat) : Int) ≤ 255) := by
        simp only [memCapacity] at h; omega
      simp only [State.pushByte, if_neg h0, State.memWrite, State.pushAddr]
      exact if_neg hi

/-- All a pop can do, the empty stack aside. -/
theorem State.popByte_cases (s : State) :
    (s.sp < memCapacity ∧ s.popByte = .ok (s.mem.read s.sp, { s with sp := s.sp + 1 })) ∨
    (memCapacity ≤ s.sp ∧ s.popByte = .error (.outOfBounds .mem s.sp)) := by
  by_cases h : s.sp < memCapacity
  · refine .inl ⟨h, ?_⟩
    have hi : (0 : Int) ≤ s.sp ∧ (s.sp : Int) ≤ 255 := by
      constructor <;> (simp only [memCapacity] at h; omega)
    simp [State.popByte, State.memRead, hi, bind, Except.bind, pure, Except.pure]
  · refine .inr ⟨Nat.not_lt.mp h, ?_⟩
    have hi : ¬((s.sp : Int) ≤ 255) := by
      simp only [memCapacity] at h; omega
    simp [State.popByte, State.memRead, hi, bind, Except.bind]

theorem State.popByte_ok (s : State) (h : s.sp < memCapacity) :
    s.popByte = .ok (s.mem.read s.sp, { s with sp := s.sp + 1 }) := by
  rcases s.popByte_cases with h' | h'
  · exact h'.2
  · exact absurd h (Nat.not_lt.mpr h'.1)

theorem State.stackEmpty_iff (s : State) : s.stackEmpty = true ↔ s.sp = 255 := by
  simp [State.stackEmpty]

theorem State.stackEmpty_false (s : State) (h : s.sp ≠ 255) : s.stackEmpty = false := by
  simp [State.stackEmpty, h]

/-! ### The end of a meaning -/

@[simp] theorem complete_ok (s t : State) : complete s (.ok t) = .next t := rfl

@[simp] theorem complete_error (s : State) (f : Fault) : complete s (.error f) = .next (s.raise f) := rfl

/-- All a meaning can end in: its writes, or its fault with none of them. -/
theorem complete_cases {s t : State} {r : Except Fault State} (h : complete s r = .next t) :
    r = .ok t ∨ ∃ f, r = .error f ∧ t = s.raise f := by
  cases r with
  | ok u => exact .inl (by simpa [complete] using h)
  | error f => exact .inr ⟨f, rfl, by simpa [complete] using h.symm⟩

/-! ### The link byte of CALL -/

/-- All the link byte can be. -/
theorem linkByte_cases (linkage : CallLinkage) (target : Byte) (s : State) :
    (linkage = .observed ∧ linkByte linkage target s = .ok target) ∨
    (linkage = .conventional ∧ s.pc + 2 ≤ 255 ∧ linkByte linkage target s = .ok (BitVec.ofNat 8 (s.pc + 2))) ∨
    (linkage = .conventional ∧ 255 < s.pc + 2 ∧
      linkByte linkage target s = .error (.outOfBounds .mem (s.pc + 2 : Nat))) := by
  cases linkage with
  | observed => exact .inl ⟨rfl, rfl⟩
  | conventional =>
    by_cases h : s.pc + 2 ≤ 255
    · exact .inr (.inl ⟨rfl, h, if_neg (Nat.not_lt.mpr h)⟩)
    · exact .inr (.inr ⟨rfl, Nat.not_le.mp h, if_pos (Nat.not_le.mp h)⟩)

/-! ### Fetching -/

/-- The bytes fetched where three cells exist. -/
theorem Memory.fetchBytes_inside (m : Memory) {pc : Nat} (h : pc + 2 < memCapacity) :
    m.fetchBytes pc = [m.read pc, m.read (pc + 1), m.read (pc + 2)] := by
  simp only [memCapacity] at h
  simp [Memory.fetchBytes, Memory.read?, memCapacity, h, show pc < 256 by omega, show pc + 1 < 256 by omega]

theorem Memory.fetchBytes_254 (m : Memory) : m.fetchBytes 254 = [m.read 254, m.read 255] := rfl

theorem Memory.fetchBytes_255 (m : Memory) : m.fetchBytes 255 = [m.read 255] := rfl

/-- No byte is fetched past the end. -/
theorem Memory.fetchBytes_outside (m : Memory) {pc : Nat} (h : memCapacity ≤ pc) : m.fetchBytes pc = [] := by
  simp only [memCapacity] at h
  simp [Memory.fetchBytes, Memory.read?, memCapacity, show ¬pc < 256 by omega, show ¬pc + 1 < 256 by omega,
    show ¬pc + 2 < 256 by omega]

/-! ### The step -/

/-- A stopped machine's step changes nothing. -/
theorem engineStep_stopped (c : Config) (run : Instr → State → Result) {s : State} (h : s.status ≠ .running) :
    engineStep c run s = .next s := by
  unfold engineStep
  split
  · exact absurd ‹_› h
  · rfl
  · rfl

/-- All a running machine's step can do: execute the fetched instruction, or take the fetch's fault. -/
theorem engineStep_running (c : Config) (run : Instr → State → Result) {s : State} (h : s.status = .running) :
    (∃ i, fetch c s = .ok i ∧ engineStep c run s = run i s) ∨
      (∃ f, fetch c s = .error f ∧ engineStep c run s = .next (s.raise f)) := by
  unfold engineStep
  rw [h]
  cases hf : fetch c s with
  | ok i => exact .inl ⟨i, rfl, rfl⟩
  | error f => exact .inr ⟨f, rfl, rfl⟩

end Sys2Proof.Machine
end

