-- ==== Sys2Proof/Laws/Exec.lean ====
section
/-! SUPPORT. What executing an instruction can do: for each meaning its result on each kind of input, and one
inversion lemma (`effect_of_execUnder`) that later proofs case on. -/

namespace Sys2Proof.Machine

/-! ### The result of each meaning on each kind of input -/

theorem execLdi_ok (s : State) {r : Byte} {i : Fin 8} (v : Byte) (h : r.toNat = i.val) :
    execLdi r v s = .next ((s.setReg i v).advance .ldi) := by
  simp [execLdi, s.writeReg_ok v h, bind, Except.bind, pure, Except.pure]

theorem execLdi_badIndex (s : State) {r : Byte} (v : Byte) (h : 8 ≤ r.toNat) :
    execLdi r v s = .next (s.raise (.outOfBounds .reg r.toNat)) := by
  simp [execLdi, s.writeReg_error v h, bind, Except.bind]

theorem execPrn_ok (s : State) {r : Byte} {i : Fin 8} (h : r.toNat = i.val) :
    execPrn r s = .next ((s.emit (s.reg i)).advance .prn) := by
  simp [execPrn, s.readReg_ok h, bind, Except.bind, pure, Except.pure]

theorem execPrn_badIndex (s : State) {r : Byte} (h : 8 ≤ r.toNat) :
    execPrn r s = .next (s.raise (.outOfBounds .reg r.toNat)) := by
  simp [execPrn, s.readReg_error h, bind, Except.bind]

theorem execMul_ok (s : State) {a b : Byte} {i j : Fin 8} (h : a.toNat = i.val) (h' : b.toNat = j.val) :
    execMul a b s = .next ((s.setReg i (alu .mul (s.reg i) (s.reg j))).advance .mul) := by
  simp [execMul, s.readReg_ok h, s.readReg_ok h', s.writeReg_ok _ h, bind, Except.bind, pure, Except.pure]

theorem execMul_badIndexA (s : State) {a : Byte} (b : Byte) (h : 8 ≤ a.toNat) :
    execMul a b s = .next (s.raise (.outOfBounds .reg a.toNat)) := by
  simp [execMul, s.readReg_error h, bind, Except.bind]

theorem execMul_badIndexB (s : State) {a b : Byte} {i : Fin 8} (h0 : a.toNat = i.val) (h : 8 ≤ b.toNat) :
    execMul a b s = .next (s.raise (.outOfBounds .reg b.toNat)) := by
  simp [execMul, s.readReg_ok h0, s.readReg_error h, bind, Except.bind]

theorem execPush_ok (s : State) {r : Byte} {i : Fin 8} (h : r.toNat = i.val) (h0 : s.sp ≠ 0)
    (h1 : s.sp ≤ memCapacity) :
    execPush r s = .next (State.advance { s with sp := s.sp - 1, mem := s.mem.write (s.sp - 1) (s.reg i) } .push) := by
  simp [execPush, s.readReg_ok h, s.pushByte_ok _ h0 h1, bind, Except.bind, pure, Except.pure]

theorem execPush_badIndex (s : State) {r : Byte} (h : 8 ≤ r.toNat) :
    execPush r s = .next (s.raise (.outOfBounds .reg r.toNat)) := by
  simp [execPush, s.readReg_error h, bind, Except.bind]

theorem execPush_full (s : State) {r : Byte} {i : Fin 8} (h : r.toNat = i.val) (h0 : s.sp = 0) :
    execPush r s = .next (s.raise (.outOfBounds .mem (-1))) := by
  simp [execPush, s.readReg_ok h, s.pushByte_full _ h0, bind, Except.bind]

theorem execPush_aboveMemory (s : State) {r : Byte} {i : Fin 8} (h : r.toNat = i.val) (h0 : memCapacity < s.sp) :
    execPush r s = .next (s.raise (.outOfBounds .mem (s.sp - 1 : Nat))) := by
  rcases s.pushByte_cases (s.reg i) with h' | h' | h'
  · omega
  · omega
  · simp [execPush, s.readReg_ok h, h'.2, bind, Except.bind]

theorem popUnder_ok (k : PopOnEmpty) (s : State) {r : Byte} {i : Fin 8} (h : r.toNat = i.val) (h1 : s.sp < 255) :
    popUnder k r s = .next ((State.setReg { s with sp := s.sp + 1 } i (s.mem.read s.sp)).advance .pop) := by
  have hne : s.stackEmpty = false := s.stackEmpty_false (by omega)
  simp [popUnder, regIndex_ok h, s.popByte_ok (by simp [memCapacity]; omega), hne, bind, Except.bind, pure, Except.pure]

theorem popUnder_badIndex (k : PopOnEmpty) (s : State) {r : Byte} (h : 8 ≤ r.toNat) :
    popUnder k r s = .next (s.raise (.outOfBounds .reg r.toNat)) := by
  simp [popUnder, regIndex_error h, bind, Except.bind]

theorem popUnder_emptyFaults (s : State) {r : Byte} {i : Fin 8} (h : r.toNat = i.val) (h1 : s.sp = 255) :
    popUnder .fault r s = .next (s.raise (.stackUnderflow .pop)) := by
  have hne : s.stackEmpty = true := s.stackEmpty_iff.mpr h1
  simp [popUnder, regIndex_ok h, hne, bind, Except.bind, throw, throwThe, MonadExceptOf.throw]

theorem popUnder_emptySkips (s : State) {r : Byte} {i : Fin 8} (h : r.toNat = i.val) (h1 : s.sp = 255) :
    popUnder .noop r s = .next (s.advance .pop) := by
  have hne : s.stackEmpty = true := s.stackEmpty_iff.mpr h1
  simp [popUnder, regIndex_ok h, hne, bind, Except.bind, pure, Except.pure]

theorem popUnder_aboveMemory (k : PopOnEmpty) (s : State) {r : Byte} {i : Fin 8} (h : r.toNat = i.val)
    (h1 : memCapacity ≤ s.sp) :
    popUnder k r s = .next (s.raise (.outOfBounds .mem s.sp)) := by
  have hne : s.stackEmpty = false := s.stackEmpty_false (by simp only [memCapacity] at h1; omega)
  rcases s.popByte_cases with h' | h'
  · omega
  · simp [popUnder, regIndex_ok h, h'.2, hne, bind, Except.bind]

theorem callUnder_badIndex (k : CallLinkage) (s : State) {r : Byte} (h : 8 ≤ r.toNat) :
    callUnder k r s = .next (s.raise (.outOfBounds .reg r.toNat)) := by
  simp [callUnder, s.readReg_error h, bind, Except.bind]

theorem callUnder_linkFaults (k : CallLinkage) (s : State) {r : Byte} {i : Fin 8} (h : r.toNat = i.val) {f : Fault}
    (hl : linkByte k (s.reg i) s = .error f) :
    callUnder k r s = .next (s.raise f) := by
  simp [callUnder, s.readReg_ok h, hl, bind, Except.bind]

theorem callUnder_pushFaults (k : CallLinkage) (s : State) {r : Byte} {i : Fin 8} (h : r.toNat = i.val) {v : Byte}
    {f : Fault} (hl : linkByte k (s.reg i) s = .ok v) (hp : s.pushByte v = .error f) :
    callUnder k r s = .next (s.raise f) := by
  simp [callUnder, s.readReg_ok h, hl, hp, bind, Except.bind]

theorem callUnder_ok (k : CallLinkage) (s : State) {r : Byte} {i : Fin 8} (h : r.toNat = i.val) {v : Byte}
    (hl : linkByte k (s.reg i) s = .ok v) (h0 : s.sp ≠ 0) (h1 : s.sp ≤ memCapacity) :
    callUnder k r s = .next (State.jump { s with sp := s.sp - 1, mem := s.mem.write (s.sp - 1) v } (s.reg i)) := by
  simp [callUnder, s.readReg_ok h, hl, s.pushByte_ok _ h0 h1, bind, Except.bind, pure, Except.pure]

theorem execRet_ok (s : State) (h1 : s.sp < 255) :
    execRet s = .next (State.jump { s with sp := s.sp + 1 } (s.mem.read s.sp)) := by
  have hne : s.stackEmpty = false := s.stackEmpty_false (by omega)
  simp [execRet, s.popByte_ok (by simp [memCapacity]; omega), hne, bind, Except.bind, pure, Except.pure]

theorem execRet_empty (s : State) (h1 : s.sp = 255) : execRet s = .next (s.raise (.stackUnderflow .ret)) := by
  have hne : s.stackEmpty = true := s.stackEmpty_iff.mpr h1
  simp [execRet, hne, throw, throwThe, MonadExceptOf.throw]

theorem execRet_aboveMemory (s : State) (h1 : memCapacity ≤ s.sp) :
    execRet s = .next (s.raise (.outOfBounds .mem s.sp)) := by
  have hne : s.stackEmpty = false := s.stackEmpty_false (by simp only [memCapacity] at h1; omega)
  rcases s.popByte_cases with h' | h'
  · omega
  · simp [execRet, h'.2, hne, bind, Except.bind]

theorem execHlt_ok (s : State) : execHlt s = .next s.halt := rfl

/-! ### One inversion lemma for all of them -/

/-- All that executing an instruction can do, under a configuration: `Effect c i s t` when `i` may take `s` to `t`.
The cases named `...AboveMemory` lie outside the range of `sp` (10_state.md R28) and no run reaches them. -/
inductive Effect (c : Config) : Instr → State → State → Prop where
  | hlt (s : State) : Effect c .hlt s s.halt
  | badIndex (s : State) (i : Instr) (r : Byte) (h : 8 ≤ r.toNat) (hi : r ∈ i.regOperands) :
      Effect c i s (s.raise (.outOfBounds .reg r.toNat))
  | ldi (s : State) (r v : Byte) (i : Fin 8) (h : r.toNat = i.val) :
      Effect c (.ldi r v) s ((s.setReg i v).advance .ldi)
  | prn (s : State) (r : Byte) (i : Fin 8) (h : r.toNat = i.val) :
      Effect c (.prn r) s ((s.emit (s.reg i)).advance .prn)
  | mul (s : State) (a b : Byte) (i j : Fin 8) (h : a.toNat = i.val) (h' : b.toNat = j.val) :
      Effect c (.mul a b) s ((s.setReg i (alu .mul (s.reg i) (s.reg j))).advance .mul)
  | push (s : State) (r : Byte) (i : Fin 8) (h : r.toNat = i.val) (h0 : s.sp ≠ 0) (h1 : s.sp ≤ memCapacity) :
      Effect c (.push r) s
        (State.advance { s with sp := s.sp - 1, mem := s.mem.write (s.sp - 1) (s.reg i) } .push)
  | pushFull (s : State) (r : Byte) (h0 : s.sp = 0) : Effect c (.push r) s (s.raise (.outOfBounds .mem (-1)))
  | pushAboveMemory (s : State) (r : Byte) (h0 : memCapacity < s.sp) :
      Effect c (.push r) s (s.raise (.outOfBounds .mem (s.sp - 1 : Nat)))
  | pop (s : State) (r : Byte) (i : Fin 8) (h : r.toNat = i.val) (h1 : s.sp < 255) :
      Effect c (.pop r) s ((State.setReg { s with sp := s.sp + 1 } i (s.mem.read s.sp)).advance .pop)
  | popEmpty (s : State) (r : Byte) (h1 : s.sp = 255) (hc : c.popOnEmpty = .fault) :
      Effect c (.pop r) s (s.raise (.stackUnderflow .pop))
  | popSkips (s : State) (r : Byte) (h1 : s.sp = 255) (hc : c.popOnEmpty = .noop) :
      Effect c (.pop r) s (s.advance .pop)
  | popAboveMemory (s : State) (r : Byte) (h1 : memCapacity ≤ s.sp) :
      Effect c (.pop r) s (s.raise (.outOfBounds .mem s.sp))
  | call (s : State) (r v : Byte) (i : Fin 8) (h : r.toNat = i.val) (h0 : s.sp ≠ 0) (h1 : s.sp ≤ memCapacity)
      (hl : linkByte c.callLinkage (s.reg i) s = .ok v) :
      Effect c (.call r) s
        (State.jump { s with sp := s.sp - 1, mem := s.mem.write (s.sp - 1) v } (s.reg i))
  | callLink (s : State) (r : Byte) (h : c.callLinkage = .conventional) (hp : 255 < s.pc + 2) :
      Effect c (.call r) s (s.raise (.outOfBounds .mem (s.pc + 2 : Nat)))
  | callFull (s : State) (r : Byte) (h0 : s.sp = 0) : Effect c (.call r) s (s.raise (.outOfBounds .mem (-1)))
  | callAboveMemory (s : State) (r : Byte) (h0 : memCapacity < s.sp) :
      Effect c (.call r) s (s.raise (.outOfBounds .mem (s.sp - 1 : Nat)))
  | ret (s : State) (h1 : s.sp < 255) : Effect c .ret s (State.jump { s with sp := s.sp + 1 } (s.mem.read s.sp))
  | retEmpty (s : State) (h1 : s.sp = 255) : Effect c .ret s (s.raise (.stackUnderflow .ret))
  | retAboveMemory (s : State) (h1 : memCapacity ≤ s.sp) : Effect c .ret s (s.raise (.outOfBounds .mem s.sp))

/-- Every instruction answers a next state, and one of these effects. -/
theorem execUnder_effect (c : Config) (i : Instr) (s : State) : ∃ t, execUnder c i s = .next t ∧ Effect c i s t := by
  cases i with
  | hlt => exact ⟨_, rfl, .hlt s⟩
  | ldi r v =>
    rcases regIndex_cases r with ⟨i, h, -⟩ | ⟨h, -⟩
    · exact ⟨_, execLdi_ok s v h, .ldi s r v i h⟩
    · exact ⟨_, execLdi_badIndex s v h, .badIndex s _ r h (by simp [Instr.regOperands])⟩
  | prn r =>
    rcases regIndex_cases r with ⟨i, h, -⟩ | ⟨h, -⟩
    · exact ⟨_, execPrn_ok s h, .prn s r i h⟩
    · exact ⟨_, execPrn_badIndex s h, .badIndex s _ r h (by simp [Instr.regOperands])⟩
  | mul a b =>
    rcases regIndex_cases a with ⟨i, h, -⟩ | ⟨h, -⟩
    · rcases regIndex_cases b with ⟨j, h', -⟩ | ⟨h', -⟩
      · exact ⟨_, execMul_ok s h h', .mul s a b i j h h'⟩
      · exact ⟨_, execMul_badIndexB s h h', .badIndex s _ b h' (by simp [Instr.regOperands])⟩
    · exact ⟨_, execMul_badIndexA s b h, .badIndex s _ a h (by simp [Instr.regOperands])⟩
  | push r =>
    rcases regIndex_cases r with ⟨i, h, -⟩ | ⟨h, -⟩
    · rcases s.pushByte_cases (s.reg i) with h' | h' | h'
      · exact ⟨_, execPush_ok s h h'.1 h'.2.1, .push s r i h h'.1 h'.2.1⟩
      · exact ⟨_, execPush_full s h h'.1, .pushFull s r h'.1⟩
      · exact ⟨_, execPush_aboveMemory s h h'.1, .pushAboveMemory s r h'.1⟩
    · exact ⟨_, execPush_badIndex s h, .badIndex s _ r h (by simp [Instr.regOperands])⟩
  | pop r =>
    rcases regIndex_cases r with ⟨i, h, -⟩ | ⟨h, -⟩
    · rcases Nat.lt_trichotomy s.sp 255 with h1 | h1 | h1
      · exact ⟨_, popUnder_ok _ s h h1, .pop s r i h h1⟩
      · cases hc : c.popOnEmpty with
        | fault => exact ⟨_, by simpa [execUnder, hc] using popUnder_emptyFaults s h h1, .popEmpty s r h1 hc⟩
        | noop => exact ⟨_, by simpa [execUnder, hc] using popUnder_emptySkips s h h1, .popSkips s r h1 hc⟩
      · exact ⟨_, popUnder_aboveMemory _ s h h1, .popAboveMemory s r h1⟩
    · exact ⟨_, popUnder_badIndex _ s h, .badIndex s _ r h (by simp [Instr.regOperands])⟩
  | call r =>
    rcases regIndex_cases r with ⟨i, h, -⟩ | ⟨h, -⟩
    · have key : ∀ v, linkByte c.callLinkage (s.reg i) s = .ok v →
          ∃ t, execUnder c (.call r) s = .next t ∧ Effect c (.call r) s t := by
        intro v hv
        rcases s.pushByte_cases v with h' | h' | h'
        · exact ⟨_, callUnder_ok _ s h hv h'.1 h'.2.1, .call s r v i h h'.1 h'.2.1 hv⟩
        · exact ⟨_, callUnder_pushFaults _ s h hv h'.2, .callFull s r h'.1⟩
        · exact ⟨_, callUnder_pushFaults _ s h hv h'.2, .callAboveMemory s r h'.1⟩
      rcases linkByte_cases c.callLinkage (s.reg i) s with h' | h' | h'
      · exact key _ h'.2
      · exact key _ h'.2.2
      · exact ⟨_, callUnder_linkFaults _ s h h'.2.2, .callLink s r h'.1 h'.2.1⟩
    · exact ⟨_, callUnder_badIndex _ s h, .badIndex s _ r h (by simp [Instr.regOperands])⟩
  | ret =>
    rcases Nat.lt_trichotomy s.sp 255 with h1 | h1 | h1
    · exact ⟨_, execRet_ok s h1, .ret s h1⟩
    · exact ⟨_, execRet_empty s h1, .retEmpty s h1⟩
    · exact ⟨_, execRet_aboveMemory s h1, .retAboveMemory s h1⟩

/-- This hardware's execution is that of its configuration. -/
theorem exec_arm_execUnder (i : Instr) (s : State) : exec i s = execUnder Config.hardware i s := by
  cases i <;> rfl

/-- What a next state of an execution is. -/
theorem effect_of_execUnder {c : Config} {i : Instr} {s t : State} (h : execUnder c i s = .next t) :
    Effect c i s t := by
  obtain ⟨u, hu, hd⟩ := execUnder_effect c i s
  rw [h] at hu; cases hu; exact hd

theorem effect_of_exec {i : Instr} {s t : State} (h : exec i s = .next t) : Effect Config.hardware i s t :=
  effect_of_execUnder (exec_arm_execUnder i s ▸ h)

end Sys2Proof.Machine
end

