-- ==== Sys2Proof/Laws/Engine.lean ====
section
/-! SUPPORT. What decoding, fetching and a whole step can do. -/

namespace Sys2Proof.Machine

/-! ### The opcode map -/

/-- A row of the map is the kind's opcode. -/
theorem opcodeOf_of_kindOf {c : Config} {b : Byte} {k : Kind} (h : c.kindOf b = some k) : b = c.opcodeOf k := by
  obtain ⟨row, hrow, rfl⟩ := Option.map_eq_some_iff.mp h
  have hb : row.1 = b := by simpa using List.find?_some hrow
  have hmem := List.mem_of_find?_eq_some hrow
  simp only [Config.opcodeTable, List.mem_cons, List.not_mem_nil, or_false] at hmem
  rcases hmem with rfl | rfl | rfl | rfl | rfl | rfl | rfl | rfl <;> exact hb.symm

/-! ### Decoding -/

/-- The operands of a kind, present or not: the decoder answers the instruction and what follows, or names the
missing operand. -/
theorem decodeOperands_cases (k : Kind) (bytes : List Byte) :
    (∃ i rest, decodeOperands k bytes = .ok (i, rest) ∧ i.kind = k ∧ bytes = i.operands ++ rest) ∨
    (bytes.length < k.arity ∧ decodeOperands k bytes = .error (.missingOperand (bytes.length + 1))) := by
  rcases bytes with - | ⟨a, - | ⟨b, rest⟩⟩ <;> cases k <;>
    simp [decodeOperands, formatF1, formatF2, Instr.kind, Instr.operands, Kind.arity]

/-- An instruction's operand bytes are as many as its kind says. -/
@[simp] theorem operands_length (i : Instr) : i.operands.length = i.kind.arity := by
  cases i <;> rfl

/-- Decoding an instruction's operands gives the instruction back. -/
theorem decodeOperands_operands (i : Instr) (rest : List Byte) :
    decodeOperands i.kind (i.operands ++ rest) = .ok (i, rest) := by
  cases i <;> rfl

/-! ### Fetching -/

/-- The bytes fetched at an address that exists: the byte there, then at most two more. -/
theorem Memory.fetchBytes_head (m : Memory) {pc : Nat} (h : pc < memCapacity) :
    ∃ tail, m.fetchBytes pc = m.read pc :: tail ∧ tail.length = min 2 (255 - pc) ∧
      ∀ k b, tail[k]? = some b → m.read? (pc + 1 + k) = some b := by
  simp only [memCapacity] at h
  have hcases : pc + 2 < 256 ∨ pc = 254 ∨ pc = 255 := by omega
  rcases hcases with h2 | rfl | rfl
  · refine ⟨_, m.fetchBytes_inside h2, by simp; omega, fun k b hk => ?_⟩
    rcases k with - | - | k
    · simpa [Memory.read?_eq_some, memCapacity, show pc + 1 < 256 by omega] using hk
    · simpa [Memory.read?_eq_some, memCapacity, Nat.add_assoc, h2] using hk
    · simp at hk
  · refine ⟨_, m.fetchBytes_254, rfl, fun k b hk => ?_⟩
    rcases k with - | k
    · simpa [Memory.read?_eq_some, memCapacity] using hk
    · simp at hk
  · exact ⟨_, m.fetchBytes_255, rfl, fun k b hk => by simp at hk⟩

/-- All a fetch can do (R81, R82): past the end; an illegal opcode; a missing operand; or an instruction whose
bytes stand at `pc`. -/
theorem fetch_cases (c : Config) (s : State) :
    (memCapacity ≤ s.pc ∧ fetch c s = .error (.outOfBounds .mem s.pc)) ∨
    (s.pc < memCapacity ∧ c.kindOf (s.mem.read s.pc) = none ∧
      fetch c s = .error (.illegalInstruction (s.mem.read s.pc))) ∨
    (s.pc < memCapacity ∧ (∃ k, c.kindOf (s.mem.read s.pc) = some k ∧ memCapacity < s.pc + k.length) ∧
      fetch c s = .error (.outOfBounds .mem 256)) ∨
    (∃ i, c.kindOf (s.mem.read s.pc) = some i.kind ∧ s.pc + i.kind.length ≤ memCapacity ∧
      (∀ k b, i.operands[k]? = some b → s.mem.read? (s.pc + 1 + k) = some b) ∧ fetch c s = .ok i) := by
  by_cases h : s.pc < memCapacity
  · obtain ⟨tail, hbytes, hlen, htail⟩ := s.mem.fetchBytes_head h
    simp only [memCapacity] at h
    cases hk : c.kindOf (s.mem.read s.pc) with
    | none =>
      refine .inr (.inl ⟨h, rfl, ?_⟩)
      simp [fetch, hbytes, decodeUnder, hk, DecodeError.fault]
    | some k =>
      refine .inr (.inr ?_)
      rcases decodeOperands_cases k tail with ⟨i, rest, hdec, rfl, rfl⟩ | ⟨hshort, hdec⟩
      · refine .inr ⟨i, rfl, ?_, fun j b hj => htail j b ?_, ?_⟩
        · simp only [List.length_append, operands_length] at hlen
          simp only [memCapacity, Kind.length]
          omega
        · rw [List.getElem?_append_left (List.getElem?_eq_some_iff.mp hj).1]
          exact hj
        · simp [fetch, hbytes, decodeUnder, hk, hdec]
      · have harity : k.arity ≤ 2 := by cases k <;> decide
        refine .inl ⟨h, ⟨k, rfl, by simp only [memCapacity, Kind.length]; omega⟩, ?_⟩
        simp only [fetch, hbytes, decodeUnder, hk, hdec, DecodeError.fault]
        congr 2
        omega
  · have h' : memCapacity ≤ s.pc := Nat.not_lt.mp h
    exact .inl ⟨h', by simp [fetch, s.mem.fetchBytes_outside h', decodeUnder, DecodeError.fault]⟩

/-! ### The step -/

/-- The step of this hardware is the step of its configuration. -/
theorem step_arm_stepUnder (s : State) : step s = stepUnder Config.hardware s := by
  have h : exec = execUnder Config.hardware := funext fun i => funext fun t => exec_arm_execUnder i t
  simp only [step, stepUnder, h]

/-- All a step can do: nothing when stopped; else the fetch's fault, or the fetched instruction's effect. -/
theorem stepUnder_cases {c : Config} {s t : State} (h : stepUnder c s = .next t) :
    (s.status ≠ .running ∧ t = s) ∨
    (s.status = .running ∧ ∃ f, fetch c s = .error f ∧ t = s.raise f) ∨
    (s.status = .running ∧ ∃ i, fetch c s = .ok i ∧ Effect c i s t) := by
  by_cases hs : s.status = .running
  · rcases engineStep_running c (execUnder c) hs with ⟨i, hi, he⟩ | ⟨f, hf, he⟩
    · exact .inr (.inr ⟨hs, i, hi, effect_of_execUnder (he ▸ h)⟩)
    · rw [stepUnder, he] at h
      exact .inr (.inl ⟨hs, f, hf, by simpa using h.symm⟩)
  · rw [stepUnder, engineStep_stopped c _ hs] at h
    exact .inl ⟨hs, by simpa using h.symm⟩

end Sys2Proof.Machine
end

