-- ==== Sys2Proof/Laws/Block.lean ====
section
/-! SUPPORT. What the block's inputs can do. -/

namespace Sys2Proof.Machine

/-- The limits of an image, one by one. -/
theorem imageWf_iff (image : List Nat) : imageWf image = true ↔ image.length ≤ 256 ∧ ∀ b ∈ image, b ≤ 255 := by
  simp [imageWf, memCapacity]

@[simp] theorem applyInput_reset (b : Block) : applyInput .reset b = .next Block.reset := rfl

theorem applyInput_load_refused {image : List Nat} (b : Block) (h : imageWf image = false) :
    applyInput (.load image) b = .refused .imageRefused := by
  simp [applyInput, Block.applyLoad, h]

theorem applyInput_load_loading {image : List Nat} {b : Block} (h : imageWf image = true) (hp : b.phase = .loading) :
    applyInput (.load image) b = .next { b with state := b.state.loadImage image } := by
  simp [applyInput, Block.applyLoad, h, hp]

theorem applyInput_load_stepping {image : List Nat} {b : Block} (h : imageWf image = true)
    (hp : b.phase = .stepping) : applyInput (.load image) b = .refused .loadNotAllowed := by
  simp [applyInput, Block.applyLoad, h, hp]

/-- The input `step` is one step of the core, and closes the time for loads. -/
theorem applyInput_step {b : Block} {t : State} (h : step b.state = .next t) :
    applyInput .step b = .next { state := t, phase := .stepping } := by
  simp [applyInput, Block.applyStep, h]

/-- All that an accepted input can do. -/
theorem applyInput_cases {input : Input} {b c : Block} (h : applyInput input b = .next c) :
    (input = .reset ∧ c = Block.reset) ∨
    (∃ image, input = .load image ∧ imageWf image = true ∧ b.phase = .loading ∧
      c = { b with state := b.state.loadImage image }) ∨
    (input = .step ∧ c.phase = .stepping ∧ step b.state = .next c.state) := by
  cases input with
  | reset => exact .inl ⟨rfl, by simpa using h.symm⟩
  | load image =>
    cases hw : imageWf image with
    | false => simp [applyInput_load_refused b hw] at h
    | true =>
      cases hp : b.phase with
      | loading => exact .inr (.inl ⟨image, rfl, hw, rfl, by simpa [applyInput_load_loading hw hp, hp] using h.symm⟩)
      | stepping => simp [applyInput_load_stepping hw hp] at h
  | step =>
    cases hs : step b.state with
    | next t =>
      have hc : { state := t, phase := .stepping } = c := by simpa [applyInput_step hs] using h
      exact .inr (.inr ⟨rfl, hc ▸ rfl, hc ▸ rfl⟩)
    | fault f => simp [applyInput, Block.applyStep, hs] at h
    | refused r => simp [applyInput, Block.applyStep, hs] at h

end Sys2Proof.Machine
end

