-- ==== Sys2Proof/Laws/PerInstr.lean ====
section
/-! SUPPORT. Families of statements made once for each constructor of Instr. -/

namespace Sys2Proof.Laws.EncodeLength

/-- An instruction's bytes are `1 + arity` many (30_encoding.md R60, R68), under every configuration. -/
def Statement (i : Instr) : Prop :=
  ∀ c : Config, (encodeUnder c i).length = i.kind.length

theorem hlt : Statement .hlt := fun _ => rfl

theorem ldi (r v : Byte) : Statement (.ldi r v) := fun _ => rfl

theorem prn (r : Byte) : Statement (.prn r) := fun _ => rfl

theorem mul (a b : Byte) : Statement (.mul a b) := fun _ => rfl

theorem push (r : Byte) : Statement (.push r) := fun _ => rfl

theorem pop (r : Byte) : Statement (.pop r) := fun _ => rfl

theorem call (r : Byte) : Statement (.call r) := fun _ => rfl

theorem ret : Statement .ret := fun _ => rfl

end Sys2Proof.Laws.EncodeLength
end

