-- ==== Sys2Proof/Tests/Slice0.lean ====
section
/-! SUPPORT. The model's own tests: decoding by words written out from the spec's encodings, the smoke tests of the
checks of WellFormed.lean, the vectors of 95_test_vectors.md, and for each obligation with hypotheses a witness that
meets them. Every expected value comes from the spec's text, the file or vector named in the comment. -/

namespace Sys2Proof.Tests

open Sys2Proof Sys2Proof.Machine

/-! ### Decoding: words written out from 30_encoding.md R64 -/

theorem test_decode_hlt : decode [0b00000001] = .ok (.hlt, []) := by decide
theorem test_decode_ldi : decode [0b10000010, 0b00000000, 0b00001000] = .ok (.ldi 0 8, []) := by decide
theorem test_decode_prn : decode [0b01000111, 0b00000000, 0b11111111] = .ok (.prn 0, [0xFF]) := by decide
theorem test_decode_mul : decode [0b10100010, 0b00000010, 0b00000101] = .ok (.mul 2 5, []) := by decide
theorem test_decode_push : decode [0b01000101, 0b00000011] = .ok (.push 3, []) := by decide
theorem test_decode_pop : decode [0b01000110, 0b00000111] = .ok (.pop 7, []) := by decide
theorem test_decode_call : decode [0b01010000, 0b00000001] = .ok (.call 1, []) := by decide
theorem test_decode_ret : decode [0b00010001] = .ok (.ret, []) := by decide
/-- R67: every byte passes decode in a `reg` field. -/
theorem test_decode_register_255 : decode [0x47, 0xFF] = .ok (.prn 0xFF, []) := by decide
/-- R66: 0x00 and 0xA0 are illegal. -/
theorem test_decode_illegal :
    decode [0x00, 1, 2] = .error (.illegalOpcode 0x00) ∧ decode [0xA0, 1, 2] = .error (.illegalOpcode 0xA0) := by
  decide
theorem test_decode_missing :
    decode [0x82, 7] = .error (.missingOperand 2) ∧ decode [0xA2] = .error (.missingOperand 1) ∧
    decode [] = .error .noOpcode := by
  decide
/-- The table's numbering: the second byte is bits 15..8, the third bits 23..16. -/
theorem test_decodeTableWord :
    decodeTableWord 24 0x0100A2 = some (.mul 0 1) ∧ decodeTableWord 8 0x11 = some .ret ∧
    decodeTableWord 8 0x0347 = some (.prn 0) ∧ decodeTableWord 8 0x99 = none := by
  decide
/-- Another `OPCODE_MAP` (R73): PUSH moved to 0x60. -/
theorem test_decode_configured :
    decodeUnder { Config.hardware with opcodeMap := { push := 0x60, pop := 0x46, call := 0x50, ret := 0x11 } }
      [0x60, 2] = .ok (.push 2, []) := by
  decide

/-! ### Smoke tests of WellFormed.lean: each check refuses an ill-formed term -/

theorem test_wf_accepts : Instr.wf (.mul 7 0) = true ∧ Config.hardware.wf = true ∧ imageWf [0, 255] = true := by decide
theorem test_wf_refuses_register_8 : Instr.wf (.ldi 8 0) = false ∧ Instr.wf (.call 8) = false := by decide
theorem test_wf_refuses_second_register : Instr.wf (.mul 0 8) = false := by decide
/-- R73: the four bytes are distinct. -/
theorem test_wf_refuses_repeated_opcode :
    OpcodeMap.wf { push := 0x45, pop := 0x45, call := 0x50, ret := 0x11 } = false := by decide
/-- R73: they differ from the fixed ones. -/
theorem test_wf_refuses_fixed_opcode :
    Config.wf { Config.hardware with opcodeMap := { push := 0x82, pop := 0x46, call := 0x50, ret := 0x11 } } = false := by
  decide
/-- R191: at most 256 values, each at most 255. -/
theorem test_wf_refuses_images : imageWf (List.replicate 257 0) = false ∧ imageWf [1, 256] = false := by
  refine ⟨?_, by decide⟩
  rw [imageWf, List.length_replicate]
  rfl

/-! ### Helpers -/

/-- The reset state with some bytes at `pc`, and `pc` and `sp` set. -/
def at' (pc sp : Nat) (bytes : List Byte) : State :=
  { State.reset with mem := Memory.placeBytes [] pc bytes, pc := pc, sp := sp }

/-- The same with some registers set, in order. -/
def withRegs (s : State) (values : List (Fin 8 × Byte)) : State :=
  values.foldl (fun t p => t.setReg p.1 p.2) s

/-- A result is a next state with a property. -/
def nextHas (r : Result) (p : State → Bool) : Bool :=
  match r with
  | .next t => p t
  | .fault _ => false
  | .refused _ => false

/-- The status of a fault taken at `pc`. -/
def faultedAt (pc : Nat) (f : Fault) : Status :=
  .faulted { pc := pc, fault := f }

theorem at'_inv {pc sp : Nat} (bytes : List Byte) (hpc : pc ≤ 256) (hsp : sp ≤ 255) : (at' pc sp bytes).Inv :=
  ⟨Memory.placeBytes_wf Memory.wf_nil pc bytes, hpc, hsp, fun _ h => nomatch h⟩

/-! ### The vectors of 95_test_vectors.md -/

/-- V-ENG-1. -/
theorem test_fetch_256 : nextHas (step (at' 256 255 [])) (fun t => t.status == faultedAt 256 (.outOfBounds .mem 256)) := by
  decide
/-- V-ENG-2. -/
theorem test_ldi_ends_at_256 :
    nextHas (step (at' 253 255 [0x82, 0, 7])) (fun t => t.reg 0 == 7 && t.pc == 256 && t.status == .running) := by decide
/-- V-ENG-3. -/
theorem test_ldi_at_254 : nextHas (step (at' 254 255 [0x82, 0]))
    (fun t => t.status == faultedAt 254 (.outOfBounds .mem 256) && t.reg 0 == 0) := by decide
/-- V-ENG-9: decode comes before the operand fetch. -/
theorem test_illegal_at_254 : nextHas (step (at' 254 255 [0x99, 0]))
    (fun t => t.status == faultedAt 254 (.illegalInstruction 0x99)) := by decide
/-- V-LDI-2. -/
theorem test_ldi : nextHas (step (withRegs (at' 10 255 [0x82, 7, 0xFF]) [(7, 3)]))
    (fun t => t.reg 7 == 255 && t.pc == 13) := by decide
/-- V-LDI-4. -/
theorem test_ldi_register_8 : nextHas (step (at' 0 255 [0x82, 8, 1]))
    (fun t => t.status == faultedAt 0 (.outOfBounds .reg 8) && t.pc == 0) := by decide
/-- V-PRN-2. -/
theorem test_prn : nextHas (step { at' 0 255 [0x47, 3] with out := [5] })
    (fun t => t.out == [5, 0] && t.pc == 2) := by decide
/-- V-PRN-3. -/
theorem test_prn_register_9 : nextHas (step { at' 0 255 [0x47, 9] with out := [1] })
    (fun t => t.status == faultedAt 0 (.outOfBounds .reg 9) && t.out == [1]) := by decide
/-- V-MUL-4. -/
theorem test_mul_square_wraps : nextHas (step (withRegs (at' 0 255 [0xA2, 2, 2]) [(2, 225)]))
    (fun t => t.reg 2 == 193 && t.pc == 3) := by decide
/-- V-MUL-1 and V-MUL-8. -/
theorem test_mul :
    nextHas (step (withRegs (at' 0 255 [0xA2, 0, 1]) [(0, 8), (1, 9)])) (fun t => t.reg 0 == 72 && t.reg 1 == 9) ∧
    nextHas (step (at' 0 255 [0xA2, 9, 10])) (fun t => t.status == faultedAt 0 (.outOfBounds .reg 9)) := by decide
/-- V-PUSH-5: the PUSH overwrites its own opcode, with no effect on this step. -/
theorem test_push_over_itself : nextHas (step (withRegs (at' 20 21 [0x45, 0]) [(0, 1)]))
    (fun t => t.sp == 20 && t.mem.read 20 == 1 && t.pc == 22) := by decide
/-- V-PUSH-3 and V-PUSH-4. -/
theorem test_push_full :
    nextHas (step (at' 10 0 [0x45, 1])) (fun t => t.status == faultedAt 10 (.outOfBounds .mem (-1)) && t.sp == 0) ∧
    nextHas (step (at' 10 0 [0x45, 8])) (fun t => t.status == faultedAt 10 (.outOfBounds .reg 8)) := by decide
/-- V-POP-5: the cell at 0 keeps its byte. -/
theorem test_pop : nextHas (exec (.pop 0) { at' 0 0 [77] with pc := 9 })
    (fun t => t.reg 0 == 77 && t.sp == 1 && t.mem.read 0 == 77 && t.pc == 11) := by decide
/-- V-POP-2, V-POP-3 and V-POP-4. -/
theorem test_pop_empty :
    nextHas (exec (.pop 3) (at' 40 255 [])) (fun t => t.status == faultedAt 40 (.stackUnderflow .pop)) ∧
    nextHas (execUnder { Config.hardware with popOnEmpty := .noop } (.pop 3) (at' 40 255 []))
      (fun t => t == { at' 40 255 [] with pc := 42 }) ∧
    nextHas (exec (.pop 12) (at' 40 255 [])) (fun t => t.status == faultedAt 40 (.outOfBounds .reg 12)) := by decide
/-- V-CALL-1 and V-CALL-2. -/
theorem test_call_linkage :
    nextHas (step (withRegs (at' 3 255 [0x50, 1]) [(1, 8)]))
      (fun t => t.mem.read 254 == 8 && t.sp == 254 && t.pc == 8) ∧
    nextHas (stepUnder { Config.hardware with callLinkage := .conventional } (withRegs (at' 3 255 [0x50, 1]) [(1, 8)]))
      (fun t => t.mem.read 254 == 5 && t.sp == 254 && t.pc == 8) := by decide
/-- V-CALL-5 and V-CALL-6. -/
theorem test_call_at_254 :
    nextHas (stepUnder { Config.hardware with callLinkage := .conventional } (withRegs (at' 254 255 [0x50]) [(0, 4)]))
      (fun t => t.status == faultedAt 254 (.outOfBounds .mem 256)) ∧
    nextHas (step (withRegs (at' 254 255 [0x50]) [(0, 4)]))
      (fun t => t.mem.read 254 == 4 && t.sp == 254 && t.pc == 4) := by decide
/-- V-ENG-6: RET at 255. -/
theorem test_ret_at_255 : nextHas (step { at' 255 200 [0x11] with mem := [(200, 0x10), (255, 0x11)] })
    (fun t => t.pc == 0x10 && t.sp == 201) := by decide
/-- V-RET-2. -/
theorem test_ret_empty : nextHas (step (at' 10 255 [0x11]))
    (fun t => t.status == faultedAt 10 (.stackUnderflow .ret)) := by decide
/-- V-HLT-2 and V-ENG-8. -/
theorem test_hlt :
    nextHas (step (withRegs (at' 0 100 [0x01]) [(5, 9)]))
      (fun t => t == { withRegs (at' 0 100 [0x01]) [(5, 9)] with status := .halted }) ∧
    nextHas (step { at' 0 100 [0x82] with status := .halted }) (fun t => t == { at' 0 100 [0x82] with status := .halted }) := by
  decide
/-- V-ALU-1 to V-ALU-4. -/
theorem test_alu : alu .add 200 100 = 44 ∧ alu .add 255 1 = 0 ∧ alu .mul 255 255 = 1 ∧ alu .mul 16 16 = 0 := by decide
/-- P7: an empty image. -/
theorem test_step_at_reset : step State.reset = .next (State.reset.raise (.illegalInstruction 0)) := rfl
/-- An input is accepted, and leaves a block with a property. -/
def inputHas (r : BlockResult) (p : Block → Bool) : Bool :=
  match r with
  | .next b => p b
  | .fault _ => false
  | .refused _ => false

/-- R34, R191: two loads before the first step are both accepted, and the second leaves the cells beyond it alone. -/
theorem test_load_twice :
    inputHas (applyInputs [.load [1, 0, 255], .load [7]] Block.reset) (fun b => b.state.mem == [(0, 7), (2, 255)]) := by
  decide
/-- R34, R193: no load after a step, and one again after a reset. -/
theorem test_load_after_a_step :
    applyInputs [.load [1], .step, .load [2]] Block.reset = .refused .loadNotAllowed ∧
    inputHas (applyInputs [.load [1], .step, .reset, .load [2]] Block.reset) (fun b => b.state.mem == [(0, 2)]) :=
  ⟨rfl, by decide⟩
/-- R70: the spelling of §8, and optional spaces. -/
theorem test_assembly :
    assembly (.ldi 0 8) = some "LDI R0,8".toList ∧ assemble "MUL R0 , R1".toList = some (.mul 0 1) ∧
    assemble "PRN R8".toList = none ∧ assemble "LDI R0,256".toList = none := by decide
/-- Memory stays canonical: writing what an unlisted address reads as removes the pair. -/
theorem test_memory_canonical :
    Memory.write [(3, 7), (9, 1)] 3 0 = [(9, 1)] ∧ Memory.write [(3, 7)] 1 2 = [(1, 2), (3, 7)] := by decide

/-! ### Witnesses: each obligation's hypotheses are met, clause by clause -/

/-- A register operand at both ends of each range. -/
theorem witness_register_operands :
    (0#8).toNat = (0 : Fin 8).val ∧ (7#8).toNat = (7 : Fin 8).val ∧ 8 ≤ (8#8).toNat ∧ 8 ≤ (255#8).toNat ∧ (7#8).toNat < 8 := by
  decide

theorem block_reset_inv : Block.reset.Inv :=
  ⟨⟨Memory.wf_nil, by decide, by decide, fun _ h => nomatch h⟩, fun _ => rfl⟩

theorem witness_LoadPlacesTheImage :
    Block.reset.Inv ∧ Block.reset.phase = .loading ∧ (∃ c, applyInput (.load [255]) Block.reset = .next c) ∧
    (List.replicate 256 255).length ≤ 256 ∧ (∀ b ∈ List.replicate 256 255, b ≤ 255) ∧
    256 < (List.replicate 257 0).length ∧ ∃ b ∈ [256], 255 < b := by
  refine ⟨block_reset_inv, rfl, ⟨_, rfl⟩, List.length_replicate.le, fun b hb => (List.eq_of_mem_replicate hb).le, ?_, 256, by decide⟩
  rw [List.length_replicate]
  decide

/-- Two nonzero loads, and a load then a step. -/
theorem witness_LoadIsAllowedExactlyUntilTheFirstStep :
    [1].length ≤ 256 ∧ (∀ v ∈ [1], v ≤ 255) ∧
    (.reset ∉ [Input.load [1], .load [2]] ∧ .step ∉ [Input.load [1], .load [2]] ∧
      ∃ c, applyInputs [.reset, .load [1], .load [2]] Block.reset = .next c) ∧
    .reset ∉ [Input.load [1], .step] ∧ .step ∈ [Input.load [1], .step] ∧
      ∃ c, applyInputs [.reset, .load [1], .step] Block.reset = .next c :=
  ⟨by decide, by decide, ⟨by decide, by decide, _, rfl⟩, by decide, by decide, _, rfl⟩

theorem witness_NoStepLeadsBackToReset : ∃ t, (at' 0 255 [0x47, 0]).Inv ∧ (at' 0 255 [0x47, 0]).status = .running ∧
    step (at' 0 255 [0x47, 0]) = .next t :=
  ⟨_, at'_inv _ (by decide) (by decide), rfl, rfl⟩

theorem witness_OnlyResetLeavesAStoppedState :
    ∃ b c d : Block, b.Inv ∧ b.state.status ≠ .running ∧ applyInput .step b = .next c ∧ applyInput .reset b = .next d :=
  ⟨{ state := (at' 0 255 []).halt, phase := .stepping }, _, _,
    ⟨⟨Memory.wf_nil, by decide, by decide, fun _ h => nomatch h⟩, fun h => nomatch h⟩, by decide, rfl, rfl⟩

theorem witness_StepExecutesTheDecodedInstruction : (at' 254 9 [0x45, 7]).status = .running ∧
    decode ((at' 254 9 [0x45, 7]).mem.fetchBytes 254) = .ok (.push 7, []) := by decide

theorem witness_StepExecutesTheBytesAtPc : (at' 253 9 [0xA2, 7, 0]).status = .running ∧
    ∀ (k : Nat) (b : Byte), (encode (.mul 7 0))[k]? = some b → (at' 253 9 [0xA2, 7, 0]).mem.read? (253 + k) = some b := by
  refine ⟨rfl, fun k b h => ?_⟩
  rcases k with - | - | - | k
  · exact h
  · exact h
  · exact h
  · simp [encode, encodeUnder, Instr.operands] at h

theorem witness_FetchPastTheEndFaults :
    (at' 256 255 []).Inv ∧ (at' 256 255 []).status = .running ∧ ¬(at' 256 255 []).pc ≤ 255 :=
  ⟨at'_inv _ (by decide) (by decide), by decide⟩

theorem witness_UnlistedOpcodeFaults : (at' 255 255 [0x99]).status = .running ∧
    (at' 255 255 [0x99]).mem.read? 255 = some 0x99 ∧
    0x99#8 ∉ [0x01#8, 0x82#8, 0x47#8, 0xA2#8, 0x45#8, 0x46#8, 0x50#8, 0x11#8] := by decide

theorem witness_OperandFetchPastTheEndFaults : (at' 254 255 [0x82]).status = .running ∧
    (at' 254 255 [0x82]).mem.read? 254 = some 0x82 ∧ Config.hardware.kindOf 0x82 = some .ldi ∧
    256 < 254 + 1 + Kind.ldi.arity := by decide

theorem witness_StoppedMachineTakesNoStep :
    (at' 0 255 []).halt.status ≠ .running ∧ ∃ t, step (at' 0 255 [0x47, 0, 0x01]) = .next t ∧ t.status = .running ∧
      decode (t.mem.fetchBytes t.pc) = .ok (.hlt, [0, 0]) :=
  ⟨by decide, _, rfl, rfl, by decide⟩

theorem witness_FaultsArePrecise : ∃ t f, (at' 0 0 [0x45, 0]).status = .running ∧
    step (at' 0 0 [0x45, 0]) = .next t ∧ t.status = .faulted f :=
  ⟨_, _, rfl, rfl, rfl⟩

/-- One instruction that completes, at the highest address it fits. -/
theorem witness_AdvanceOfPc : ∃ t, (at' 254 255 [0x47, 0]).Inv ∧ (at' 254 255 [0x47, 0]).status = .running ∧
    (at' 254 255 [0x47, 0]).mem.read? 254 = some 0x47 ∧ Config.hardware.kindOf 0x47 = some .prn ∧
    stepUnder Config.hardware (at' 254 255 [0x47, 0]) = .next t ∧ ∀ f, t.status ≠ .faulted f :=
  ⟨_, at'_inv _ (by decide) (by decide), rfl, by decide, by decide, rfl, fun _ h => nomatch h⟩

/-- The clauses of CALL, RET and HLT of the same statement: each completes somewhere. -/
theorem witness_AdvanceOfPc_transfers :
    (∃ t, stepUnder Config.hardware (at' 254 1 [0x50, 7]) = .next t ∧ t.status = .running) ∧
    (∃ t, stepUnder Config.hardware (at' 255 254 [0x11]) = .next t ∧ t.status = .running) ∧
    (∃ t, stepUnder Config.hardware (at' 255 0 [0x01]) = .next t ∧ t.status = .halted) :=
  ⟨⟨_, rfl, rfl⟩, ⟨_, rfl, rfl⟩, ⟨_, rfl, rfl⟩⟩

/-- Clauses 1 to 3; clauses 4 to 9 ask for operands of `witness_register_operands` and the rest below. -/
theorem witness_FirstFaultOfTheOrder :
    (at' 256 0 []).status = .running ∧ (at' 256 0 []).pc = 256 ∧
    (at' 254 0 [0x99]).mem.read? 254 = some 0x99 ∧ Config.hardware.kindOf 0x99 = none ∧
    (at' 255 0 [0x45]).mem.read? 255 = some 0x45 ∧ Config.hardware.kindOf 0x45 = some .push ∧
    256 < 255 + 1 + Kind.push.arity ∧
    ({ Config.hardware with callLinkage := .conventional } : Config).callLinkage = .conventional ∧ 255 < 254 + 2 ∧
    (at' 253 0 []).sp = 0 ∧ 253 + 2 ≤ 255 ∧ Config.hardware.callLinkage = .observed ∧
    (at' 0 255 []).sp = 255 ∧ Config.hardware.popOnEmpty = .fault := by decide

theorem witness_OnlyTheListedFaultsOccur : ∃ t f, (at' 255 255 [0x11]).Inv ∧ (at' 255 255 [0x11]).status = .running ∧
    stepUnder Config.hardware (at' 255 255 [0x11]) = .next t ∧ t.status = .faulted f :=
  ⟨_, _, at'_inv _ (by decide) (by decide), rfl, rfl, rfl⟩

theorem witness_UnsupportedOperationIsUnreachable : "SUB" ≠ "ADD" ∧ "SUB" ≠ "MUL" ∧
    ∃ t f, (at' 0 255 [0x00]).status = .running ∧ step (at' 0 255 [0x00]) = .next t ∧ t.status = .faulted f :=
  ⟨by decide, by decide, _, _, rfl, rfl, rfl⟩

/-- The hypotheses of the invariants and of the statements about one step that ask for no more. -/
theorem witness_StepKeepsTheStateInRange : ∃ t, (at' 0 1 [0x45, 0]).Inv ∧ step (at' 0 1 [0x45, 0]) = .next t ∧
    stepUnder Config.hardware (at' 0 1 [0x45, 0]) = .next t :=
  ⟨_, at'_inv _ (by decide) (by decide), rfl, rfl⟩

theorem witness_HostInputKeepsTheStateInRange :
    ∃ c, Block.reset.Inv ∧ applyInput (.load [255]) Block.reset = .next c :=
  ⟨_, block_reset_inv, rfl⟩

theorem witness_OnlyPrnChangesTheOutput : ∃ t, step (at' 254 255 [0x47, 7]) = .next t ∧ t.out = [0] :=
  ⟨_, rfl, rfl⟩

theorem witness_OnlyStackInstructionsMoveSp :
    (∃ t, step (at' 9 1 [0x45, 7]) = .next t ∧ t.sp = 0) ∧ ∃ t, step (at' 9 254 [0x46, 7]) = .next t ∧ t.sp = 255 :=
  ⟨⟨_, rfl, rfl⟩, _, rfl, rfl⟩

theorem witness_CellAtTheTopIsNeverStoredTo : ∃ t, (at' 0 255 [0x50, 0]).Inv ∧ step (at' 0 255 [0x50, 0]) = .next t :=
  ⟨_, at'_inv _ (by decide) (by decide), rfl⟩

theorem witness_OutputIsNeverRead : ∃ t, step (at' 0 255 [0x47, 0]) = .next t := ⟨_, rfl⟩

/-- PUSH at 10 with `sp = 13` stores at 12, where `pc` then stands; R1 holds an illegal opcode, R2 that of HLT. -/
theorem witness_PushedByteIsTheNextOpcode :
    (∃ t, (withRegs (at' 10 13 []) [(1, 0xA0)]).Inv ∧ exec (.push (regByte 1)) (withRegs (at' 10 13 []) [(1, 0xA0)]) = .next t ∧
      t.status = .running ∧ t.pc = t.sp ∧ Config.hardware.kindOf ((withRegs (at' 10 13 []) [(1, 0xA0)]).reg 1) = none) ∧
    (∃ t, exec (.push (regByte 2)) (withRegs (at' 10 13 []) [(2, 0x01)]) = .next t ∧
      t.status = .running ∧ t.pc = t.sp ∧ (withRegs (at' 10 13 []) [(2, 0x01)]).reg 2 = 0x01) :=
  ⟨⟨_, ⟨Memory.wf_nil, by decide, by decide, fun _ h => nomatch h⟩, rfl, rfl, rfl, by decide⟩, _, rfl, rfl, rfl, by decide⟩

theorem witness_RunWithoutLimitHasOneEnd : ∃ e, EndsWith (at' 0 255 [0x01]) e :=
  ⟨_, 1, rfl, fun _ h => nomatch h⟩

/-- The operand fetch clauses of the instruction statements: the opcode at the last address. -/
theorem witness_opcode_at_the_end :
    (at' 255 0 [0x82]).mem.read? 255 = some 0x82 ∧ (at' 254 0 [0x82]).mem.read? 254 = some 0x82 ∧
    (at' 255 0 [0x47]).mem.read? 255 = some 0x47 ∧ (at' 255 0 [0xA2]).mem.read? 255 = some 0xA2 ∧
    (at' 255 0 [0x45]).mem.read? 255 = some 0x45 ∧ (at' 255 0 [0x46]).mem.read? 255 = some 0x46 ∧
    (at' 255 0 [0x50]).mem.read? 255 = some 0x50 ∧ (at' 255 0 [0x11]).mem.read? 255 = some 0x11 ∧
    (at' 255 0 [0x01]).mem.read? 255 = some 0x01 ∧ (at' 255 0 [0x01]).status = .running := by decide

/-- LDI, PRN, MUL: the completing clauses ask only for operands (`witness_register_operands`). -/
theorem witness_LdiLoadsTheImmediate :
    nextHas (exec (.ldi 7 255) (at' 0 0 [])) (fun t => t.reg 7 == 255 && t.status == .running) := by decide
theorem witness_PrnEmitsTheRegister :
    nextHas (exec (.prn 7) (at' 0 0 [])) (fun t => t.out == [0] && t.status == .running) := by decide
theorem witness_MulMultipliesRegisters :
    nextHas (exec (.mul 7 0) (withRegs (at' 0 0 []) [(7, 255), (0, 255)])) (fun t => t.reg 7 == 1) := by decide

/-- PUSH: with room for the last byte, and full. -/
theorem witness_PushStoresTheRegister :
    (at' 9 1 []).Inv ∧ (at' 9 1 []).sp ≠ 0 ∧ (at' 9 255 []).Inv ∧ (at' 9 255 []).sp ≠ 0 ∧ (at' 9 0 []).sp = 0 :=
  ⟨at'_inv _ (by decide) (by decide), by decide, at'_inv _ (by decide) (by decide), by decide, by decide⟩

/-- POP: the fullest and the last stack that is not empty, the empty one, and a configuration of each kind. -/
theorem witness_PopLoadsTheStackTop :
    (at' 9 0 []).sp < 255 ∧ (at' 9 254 []).sp < 255 ∧ (at' 9 255 []).sp = 255 ∧
    ({ Config.hardware with popOnEmpty := .noop } : Config).popOnEmpty = .noop ∧
    Config.hardware.popOnEmpty = .fault := by decide

/-- CALL: with room, under each linkage, at the highest address each clause allows. -/
theorem witness_CallPushesAndJumps :
    (at' 254 1 []).Inv ∧ (at' 254 1 []).sp ≠ 0 ∧ (at' 253 1 []).Inv ∧ (at' 253 1 []).pc + 2 ≤ 255 ∧
    (at' 254 0 []).pc = 254 ∧ (at' 253 0 []).sp = 0 ∧ Config.hardware.callLinkage = .observed ∧
    ({ Config.hardware with callLinkage := .conventional } : Config).callLinkage = .conventional :=
  ⟨at'_inv _ (by decide) (by decide), by decide, at'_inv _ (by decide) (by decide), by decide⟩

theorem witness_RetPopsThePc : (at' 9 254 []).sp < 255 ∧ (at' 9 0 []).sp < 255 ∧ (at' 9 255 []).sp = 255 := by decide

theorem witness_HltHalts : ∃ t, exec .hlt (at' 255 0 []) = .next t := ⟨_, rfl⟩

theorem witness_FrameOfInstructionsThatStoreNothing : ∃ t,
    (Instr.pop 3).kind ∈ [Kind.hlt, .ldi, .prn, .mul, .pop, .ret] ∧ exec (.pop 3) (at' 0 254 []) = .next t ∧
    destination (.pop 3) ≠ some (regByte 4) :=
  ⟨_, by decide, rfl, by decide⟩

theorem witness_FrameOfPushAndCall : ∃ t,
    (Instr.call 3).kind ∈ [Kind.push, .call] ∧ exec (.call 3) (at' 0 1 []) = .next t ∧ 1 ≠ (at' 0 1 []).pushAddr :=
  ⟨_, by decide, rfl, by decide⟩

theorem witness_MemoryAccessIsChecked : (at' 0 0 []).Inv ∧ ((0 : Int) ≤ 0 ∧ (0 : Int) ≤ 255) ∧
    ((0 : Int) ≤ 255 ∧ (255 : Int) ≤ 255) ∧ ¬((0 : Int) ≤ 256 ∧ (256 : Int) ≤ 255) ∧ ¬((0 : Int) ≤ -1 ∧ (-1 : Int) ≤ 255) :=
  ⟨at'_inv _ (by decide) (by decide), by decide⟩

theorem witness_PopsReturnThePushesReversed : (at' 0 3 []).Inv ∧ (at' 0 3 []).status = .running ∧
    [(1 : Fin 8), 1, 7].length ≤ (at' 0 3 []).sp ∧ [(0 : Fin 8), 0, 2].length = [(1 : Fin 8), 1, 7].length :=
  ⟨at'_inv _ (by decide) (by decide), by decide⟩

theorem witness_RetAfterCallFollowsTheLinkage : (at' 253 1 []).Inv ∧ (at' 253 1 []).status = .running ∧
    (∃ t, execUnder Config.hardware (.call (regByte 7)) (at' 253 1 []) = .next t ∧ t.status = .running) ∧
    ∃ t, execUnder { Config.hardware with callLinkage := .conventional } (.call (regByte 7)) (at' 253 1 []) = .next t ∧
      t.status = .running :=
  ⟨at'_inv _ (by decide) (by decide), rfl, ⟨_, rfl, rfl⟩, _, rfl, rfl⟩

theorem witness_HardwareIsOneConfiguration : Instr.ret.kind ≠ .pop ∧ Instr.ret.kind ≠ .call := by decide

theorem witness_DecodeOfEncode : Config.hardware.wf = true := by decide

theorem witness_EncodeOfDecode : decodeUnder Config.hardware [0xA2, 255, 0, 9] = .ok (.mul 255 0, [9]) := by decide

theorem witness_LengthIsKnownFromTheOpcode :
    Config.hardware.kindOf 0x82 = some .ldi ∧ [1#8, 2#8].length = Kind.ldi.arity ∧ [1#8].length < Kind.ldi.arity ∧
    (at' 255 0 [0x11]).mem.read? 255 = some 0x11 ∧ (at' 255 0 [0x11]).status = .running ∧
    Config.hardware.kindOf 0x11 = some .ret ∧ Kind.ret.arity = 0 := by decide

theorem witness_PlacedWordIsExecutedNext : (at' 253 0 []).Inv ∧ (at' 253 0 []).pc ≤ 253 ∧
    decodeTableWord 24 0xFF0782 = some (.ldi 7 255) :=
  ⟨at'_inv _ (by decide) (by decide), by decide⟩

theorem witness_AssemblyReadsBack : Instr.wf (.ldi 7 255) = true := by decide

end Sys2Proof.Tests
end

section
/-! SUPPORT. What the bounds-checked memory accesses answer (R9), one lemma per side of the check. -/

namespace Sys2Proof.Machine

theorem State.memRead_ok (s : State) {addr : Int} (h : 0 ≤ addr ∧ addr ≤ 255) :
    s.memRead addr = .ok (s.mem.read addr.toNat) :=
  if_pos h

theorem State.memRead_error (s : State) {addr : Int} (h : ¬(0 ≤ addr ∧ addr ≤ 255)) :
    s.memRead addr = .error (.outOfBounds .mem addr) :=
  if_neg h

theorem State.memWrite_ok (s : State) {addr : Int} (v : Byte) (h : 0 ≤ addr ∧ addr ≤ 255) :
    s.memWrite addr v = .ok { s with mem := s.mem.write addr.toNat v } :=
  if_pos h

theorem State.memWrite_error (s : State) {addr : Int} (v : Byte) (h : ¬(0 ≤ addr ∧ addr ≤ 255)) :
    s.memWrite addr v = .error (.outOfBounds .mem addr) :=
  if_neg h

/-- An address the check of R9 lets through is that of a cell that exists (R40). -/
theorem toNat_lt_memCapacity {addr : Int} (h : 0 ≤ addr ∧ addr ≤ 255) : addr.toNat < memCapacity := by
  simp only [memCapacity]
  omega

end Sys2Proof.Machine
end

section
/-! PROOFS. The bounds-checked accesses to memory and registers (00_scope.md R9, R10). -/

namespace Sys2Proof.Machine

/-- Settles O40, on each side of the bounds check: inside, the laws of the canonical memory give the cell written and
the other cells. -/
theorem memoryAccessIsChecked : Obligations.MemoryAccessIsChecked := by
  refine ⟨fun s addr h => ?_, fun s addr v hs h => ?_, fun s addr v h => ?_⟩
  · exact ⟨_, s.memRead_ok h, Memory.read?_inside s.mem (toNat_lt_memCapacity h)⟩
  · have written := Memory.read?_write_same hs.mem_wf (toNat_lt_memCapacity h) v
    have others : ∀ a, a ≠ addr.toNat → (s.mem.write addr.toNat v).read? a = s.mem.read? a :=
      fun _ ha => Memory.read?_write_other s.mem v ha
    exact ⟨_, s.memWrite_ok v h, written, others, rfl, rfl, rfl, rfl, rfl⟩
  · exact ⟨s.memRead_error h, s.memWrite_error v h⟩

/-- Settles O41, on each side of the operand check: an operand 0..7 comes down to `State.reg` and `State.setReg`. -/
theorem registerAccessIsChecked : Obligations.RegisterAccessIsChecked := by
  refine ⟨fun s r v i h => ⟨s.readReg_ok h, ?_⟩, fun s r v h => ?_⟩
  · exact ⟨s.setReg i v, s.writeReg_ok v h, s.setReg_reg_same i v, fun _ hj => s.setReg_reg_other v hj,
      s.setReg_mem i v, s.setReg_pc i v, s.setReg_sp i v, s.setReg_status i v, s.setReg_out i v⟩
  · exact ⟨s.readReg_error h, s.writeReg_error v h⟩

end Sys2Proof.Machine
end

section
/-! SUPPORT. The decoder by the kind of the opcode byte: which instruction it answers, or which operand is missing
(R68). -/

namespace Sys2Proof.Machine

/-- Once the opcode byte has a kind, only the kind and the bytes after it matter (R63). -/
theorem decodeUnder_of_kindOf {c : Config} {op : Byte} {k : Kind} (h : c.kindOf op = some k) (bytes : List Byte) :
    decodeUnder c (op :: bytes) = decodeOperands k bytes := by
  simp only [decodeUnder, h]

/-- Operand bytes as many as the kind's arity are those of an instruction of that kind. -/
theorem exists_instr_of_operands {k : Kind} {operands : List Byte} (h : operands.length = k.arity) :
    ∃ i : Instr, i.kind = k ∧ i.operands = operands := by
  rcases decodeOperands_cases k operands with ⟨i, rest, -, rfl, rfl⟩ | ⟨hshort, -⟩
  · have hrest : rest = [] := by simpa using h
    exact ⟨i, rfl, by rw [hrest, List.append_nil]⟩
  · exact absurd h hshort.ne

/-- An opcode byte and as many bytes as its kind's arity decode to an instruction made of just them, whatever follows. -/
theorem decodeUnder_operands {c : Config} {op : Byte} {k : Kind} {operands : List Byte} (hop : c.kindOf op = some k)
    (hlen : operands.length = k.arity) :
    ∃ i, i.kind = k ∧ i.operands = operands ∧ ∀ tail, decodeUnder c (op :: operands ++ tail) = .ok (i, tail) := by
  obtain ⟨i, rfl, rfl⟩ := exists_instr_of_operands hlen
  exact ⟨i, rfl, rfl, fun tail => (decodeUnder_of_kindOf hop _).trans (decodeOperands_operands i tail)⟩

/-- With too few bytes after the opcode, the missing operand is the first one that is not there (R82). -/
theorem decodeOperands_missing {k : Kind} {bytes : List Byte} (h : bytes.length < k.arity) :
    decodeOperands k bytes = .error (.missingOperand (bytes.length + 1)) := by
  rcases decodeOperands_cases k bytes with ⟨i, rest, -, rfl, rfl⟩ | ⟨-, herror⟩
  · simp at h
  · exact herror

/-- A running machine executes the instruction it fetches. -/
theorem step_of_fetch {s : State} {i : Instr} (hs : s.status = .running) (h : fetch Config.hardware s = .ok i) :
    step s = exec i s := by
  simp only [step, engineStep, hs, h]

/-- The fetch at the last address, where memory holds the opcode byte and no more. -/
theorem fetch_255 {c : Config} {s : State} {op : Byte} {i : Instr} {rest : List Byte} (hpc : s.pc = 255)
    (hop : s.mem.read? 255 = some op) (h : decodeUnder c [op] = .ok (i, rest)) : fetch c s = .ok i := by
  obtain ⟨-, hread⟩ := Memory.read?_eq_some.mp hop
  simp only [fetch, hpc, Memory.fetchBytes_255, hread, h]

end Sys2Proof.Machine
end

section
/-! PROOFS. The length of an instruction (30_encoding.md R68). -/

namespace Sys2Proof.Machine

/-- Settles O47: the opcode's kind alone picks the operand format, so the three clauses are the decoder's answers for
enough bytes, for too few, and, at 255, for none where none is needed. -/
theorem lengthIsKnownFromTheOpcode : Obligations.LengthIsKnownFromTheOpcode := by
  refine ⟨fun c op k operands hop hlen => decodeUnder_operands hop hlen, fun c op k bytes hop hshort => ?_,
    fun s op k hs hpc hread hop harity => ?_⟩
  · rw [decodeUnder_of_kindOf hop, decodeOperands_missing hshort]
  · obtain ⟨i, hkind, -, hdecode⟩ := decodeUnder_operands (operands := []) hop harity.symm
    exact ⟨i, hkind, step_of_fetch hs (fetch_255 hpc hread (hdecode []))⟩

end Sys2Proof.Machine
end

section
/-! SUPPORT. What the statements about one instruction share: its bytes decode back on this hardware (R60 to R64), and
an opcode too near the end of memory takes the operand fetch's fault (R82). -/

namespace Sys2Proof.Machine

/-- This hardware's map names each kind by its own opcode byte (R64, R73). -/
theorem kindOf_opcodeOf_hardware (k : Kind) : Config.hardware.kindOf (Config.hardware.opcodeOf k) = some k := by
  cases k <;> rfl

/-- An instruction's bytes, and no more, decode to it on this hardware. -/
theorem decode_encode (i : Instr) : decode (encode i) = .ok (i, []) := by
  have hdecode : decode (encode i) = decodeOperands i.kind i.operands :=
    decodeUnder_of_kindOf (kindOf_opcodeOf_hardware i.kind) i.operands
  simpa [hdecode] using decodeOperands_operands i []

/-- A running machine takes the fault of its fetch. -/
theorem step_of_fetch_error {s : State} {f : Fault} (hs : s.status = .running)
    (h : fetch Config.hardware s = .error f) : step s = .next (s.raise f) := by
  simp only [step, engineStep, hs, h]

/-- Where the instruction of an opcode byte would reach past the end of memory, the fetch faults at the first address
that does not exist (R82). -/
theorem fetch_pastEnd {c : Config} {s : State} {op : Byte} {k : Kind} (hop : c.kindOf op = some k)
    (hread : s.mem.read? s.pc = some op) (hend : memCapacity < s.pc + k.length) :
    fetch c s = .error (.outOfBounds .mem 256) := by
  obtain ⟨hpc, rfl⟩ := Memory.read?_eq_some.mp hread
  rcases fetch_cases c s with ⟨hout, -⟩ | ⟨-, hnone, -⟩ | ⟨-, -, hfault⟩ | ⟨i, hkind, hfits, -, -⟩
  · exact absurd hpc hout.not_gt
  · simp [hop] at hnone
  · exact hfault
  · obtain rfl : k = i.kind := Option.some.inj (hop.symm.trans hkind)
    exact absurd hend hfits.not_gt

/-- A running machine at an opcode byte whose instruction would reach past the end of memory takes
`OutOfBounds(MEM, 256)`. -/
theorem step_pastEnd {s : State} {op : Byte} {k : Kind} (hs : s.status = .running)
    (hop : Config.hardware.kindOf op = some k) (hread : s.mem.read? s.pc = some op)
    (hend : memCapacity < s.pc + k.length) : step s = .next (s.raise (.outOfBounds .mem 256)) :=
  step_of_fetch_error hs (fetch_pastEnd hop hread hend)

end Sys2Proof.Machine
end

section
/-! PROOFS. Data movement: LDI and PRN (41_data_movement.md R100, R101). -/

namespace Sys2Proof.Machine

/-- Settles O29: an operand 0..7 makes LDI a `State.setReg` and an advance; LDI is three bytes long, so at 254 and at
255 it reaches past the end. -/
theorem ldiLoadsTheImmediate : Obligations.LdiLoadsTheImmediate := by
  refine ⟨fun s r v i h => ?_, fun s r v h => execLdi_badIndex s v h,
    fun r v => ⟨rfl, decode_encode (.ldi r v)⟩, fun s hs hread hpc => ?_⟩
  · have others : ∀ j, j ≠ i → (s.setReg i v).reg j = s.reg j := fun _ hj => s.setReg_reg_other v hj
    exact ⟨(s.setReg i v).advance .ldi, execLdi_ok s v h, s.setReg_reg_same i v, others, rfl, rfl, rfl, rfl, rfl⟩
  · have hend : memCapacity < s.pc + Kind.ldi.length := by
      rcases hpc with hpc | hpc <;> rw [hpc] <;> decide
    exact step_pastEnd hs (kindOf_opcodeOf_hardware .ldi) hread hend

/-- Settles O30: an operand 0..7 makes PRN a `State.emit` and an advance; PRN is two bytes long, so at 255 it reaches
past the end. -/
theorem prnEmitsTheRegister : Obligations.PrnEmitsTheRegister := by
  refine ⟨fun s r i h => ?_, fun s r h => execPrn_badIndex s h,
    fun r => ⟨rfl, decode_encode (.prn r)⟩, fun s hs hread hpc => ?_⟩
  · exact ⟨(s.emit (s.reg i)).advance .prn, execPrn_ok s h, rfl, rfl, fun _ => rfl, rfl, rfl, rfl⟩
  · have hend : memCapacity < s.pc + Kind.prn.length := by rw [hpc]; decide
    exact step_pastEnd hs (kindOf_opcodeOf_hardware .prn) hread hend

end Sys2Proof.Machine
end

section
/-! PROOFS. Arithmetic: MUL (42_arithmetic.md R112, R115). -/

namespace Sys2Proof.Machine

/-- The ALU's MUL answers the low 8 bits of the exact product (R112). -/
theorem alu_mul_toNat (x y : Byte) : (alu .mul x y).toNat = x.toNat * y.toNat % 256 :=
  BitVec.toNat_ofNat (x.toNat * y.toNat) 8

/-- Settles O31: two operands 0..7 make MUL a `State.setReg` of the ALU's product and an advance; operand A is checked
before operand B; MUL is three bytes long, so at 254 and at 255 it reaches past the end. -/
theorem mulMultipliesRegisters : Obligations.MulMultipliesRegisters := by
  refine ⟨fun s a b i j ha hb => ?_, fun s a b ha => execMul_badIndexA s b ha,
    fun s a b ha hb => execMul_badIndexB s (i := ⟨a.toNat, ha⟩) rfl hb,
    fun a b => ⟨rfl, decode_encode (.mul a b)⟩, fun s hs hread hpc => ?_⟩
  · have product : ((s.setReg i (alu .mul (s.reg i) (s.reg j))).reg i).toNat =
        (s.reg i).toNat * (s.reg j).toNat % 256 := by
      rw [s.setReg_reg_same, alu_mul_toNat]
    exact ⟨_, execMul_ok s ha hb, product, fun _ hk => s.setReg_reg_other _ hk, rfl, rfl, rfl, rfl, rfl⟩
  · have hend : memCapacity < s.pc + Kind.mul.length := by
      rcases hpc with hpc | hpc <;> rw [hpc] <;> decide
    exact step_pastEnd hs (kindOf_opcodeOf_hardware .mul) hread hend

end Sys2Proof.Machine
end

section
/-! PROOFS. The input reset (70_reset_and_hazards.md R190, 10_state.md R36). -/

namespace Sys2Proof.Machine

/-- Every memory cell reads 0 at reset (R36); `State.reset_reg` says the same of every register. -/
theorem State.reset_mem_read? {a : Nat} (h : a < memCapacity) : State.reset.mem.read? a = some 0 :=
  calc State.reset.mem.read? a
      = some (State.reset.mem.read a) := State.reset.mem.read?_inside h
    _ = some 0 := congrArg some (Memory.read_nil a)

/-- Settles O1: the input reset answers `Block.reset` from every block, and its state is `State.reset`, whose cells and
registers read 0. -/
theorem resetGivesTheStatedState : Obligations.ResetGivesTheStatedState := fun b =>
  ⟨Block.reset, applyInput_reset b, rfl, fun _ h => State.reset_mem_read? h, State.reset_reg, rfl, rfl, rfl, rfl⟩

end Sys2Proof.Machine
end

section
/-! SUPPORT. What the fetch answers, read backwards and forwards (40_engine.md R81, R82). -/

namespace Sys2Proof.Machine

/-- What a fetched instruction tells of memory: its kind is that of the byte at `pc`, it ends inside memory, and its
operands stand after that byte. -/
theorem fetch_ok {c : Config} {s : State} {i : Instr} (h : fetch c s = .ok i) :
    c.kindOf (s.mem.read s.pc) = some i.kind ∧ s.pc + i.kind.length ≤ memCapacity ∧
      ∀ k b, i.operands[k]? = some b → s.mem.read? (s.pc + 1 + k) = some b := by
  rcases fetch_cases c s with ⟨-, he⟩ | ⟨-, -, he⟩ | ⟨-, -, he⟩ | ⟨j, hkind, hfits, hops, hj⟩
  · simp [h] at he
  · simp [h] at he
  · simp [h] at he
  · obtain rfl : i = j := by simpa [h] using hj
    exact ⟨hkind, hfits, hops⟩

/-- The faults a fetch can raise (R161, R162). -/
theorem fetch_error {c : Config} {s : State} {f : Fault} (h : fetch c s = .error f) :
    (memCapacity ≤ s.pc ∧ f = .outOfBounds .mem s.pc) ∨
      (∃ b, c.kindOf b = none ∧ f = .illegalInstruction b) ∨ f = .outOfBounds .mem 256 := by
  rcases fetch_cases c s with ⟨hpc, he⟩ | ⟨-, hnone, he⟩ | ⟨-, -, he⟩ | ⟨i, -, -, -, he⟩
  · exact .inl ⟨hpc, by simpa [h] using he⟩
  · exact .inr (.inl ⟨_, hnone, by simpa [h] using he⟩)
  · exact .inr (.inr (by simpa [h] using he))
  · simp [h] at he

theorem kind_length_pos (k : Kind) : 0 < k.length := by
  cases k <;> decide

/-- The opcode byte of a fetched instruction stands at `pc`. -/
theorem read?_pc_of_fetch {c : Config} {s : State} {i : Instr} (h : fetch c s = .ok i) :
    s.mem.read? s.pc = some (c.opcodeOf i.kind) := by
  obtain ⟨hkind, hfits, -⟩ := fetch_ok h
  have hpc : s.pc < memCapacity := by
    have := kind_length_pos i.kind
    omega
  rw [Memory.read?_inside _ hpc, opcodeOf_of_kindOf hkind]

/-- The fetch at the first address past memory (R81, decision D3). -/
theorem fetch_past {c : Config} {s : State} (h : s.pc = 256) : fetch c s = .error (.outOfBounds .mem 256) := by
  rcases fetch_cases c s with ⟨-, he⟩ | ⟨hpc, -⟩ | ⟨-, -, he⟩ | ⟨i, -, hfits, -⟩
  · simpa [h] using he
  · simp [memCapacity, h] at hpc
  · exact he
  · have := kind_length_pos i.kind
    simp only [memCapacity] at hfits
    omega

/-- An opcode byte without a kind is illegal, whatever follows it (R82). -/
theorem fetch_illegal {c : Config} {s : State} {b : Byte} (hread : s.mem.read? s.pc = some b)
    (hb : c.kindOf b = none) : fetch c s = .error (.illegalInstruction b) := by
  obtain ⟨hpc, rfl⟩ := Memory.read?_eq_some.mp hread
  rcases fetch_cases c s with ⟨hout, -⟩ | ⟨-, -, he⟩ | ⟨-, ⟨k, hk, -⟩, -⟩ | ⟨i, hk, -⟩
  · exact absurd hpc hout.not_gt
  · exact he
  · simp [hb] at hk
  · simp [hb] at hk

/-- A running machine takes the fault of its fetch, under every configuration. -/
theorem stepUnder_of_fetch_error {c : Config} {s : State} {f : Fault} (hs : s.status = .running)
    (h : fetch c s = .error f) : stepUnder c s = .next (s.raise f) := by
  simp only [stepUnder, engineStep, hs, h]

/-- An instruction is its kind and its operands. -/
theorem instr_eq_of_operands {i j : Instr} (hkind : i.kind = j.kind) (hops : i.operands = j.operands) : i = j := by
  have hi := decodeOperands_operands i []
  rw [hkind, hops, decodeOperands_operands j []] at hi
  simpa using hi.symm

/-- Where an instruction's bytes stand at `pc`, the fetch answers it. -/
theorem fetch_of_bytes {c : Config} {s : State} {i : Instr} (hkind : c.kindOf (c.opcodeOf i.kind) = some i.kind)
    (h : ∀ k b, (encodeUnder c i)[k]? = some b → s.mem.read? (s.pc + k) = some b) : fetch c s = .ok i := by
  have hop : s.mem.read? s.pc = some (c.opcodeOf i.kind) := h 0 _ rfl
  have hops : ∀ k b, i.operands[k]? = some b → s.mem.read? (s.pc + 1 + k) = some b := fun k b hk => by
    rw [Nat.add_assoc, Nat.add_comm 1 k]
    exact h (k + 1) b hk
  obtain ⟨hpc, hread⟩ := Memory.read?_eq_some.mp hop
  rcases fetch_cases c s with ⟨hout, -⟩ | ⟨-, hnone, -⟩ | ⟨-, ⟨k, hk, hend⟩, -⟩ | ⟨j, hj, -, hjops, hfetch⟩
  · exact absurd hpc hout.not_gt
  · simp [hread, hkind] at hnone
  · obtain rfl : i.kind = k := by simpa [hread, hkind] using hk
    have hlast : s.pc + i.kind.arity < memCapacity := by
      rcases Nat.eq_zero_or_pos i.kind.arity with h0 | h0
      · omega
      · have hlt : i.kind.arity - 1 < i.operands.length := by rw [operands_length]; omega
        have := (Memory.read?_eq_some.mp (hops _ _ (List.getElem?_eq_getElem hlt))).1
        omega
    simp only [Kind.length] at hend
    omega
  · have hkinds : i.kind = j.kind := by simpa [hread, hkind] using hj
    have hsame : i.operands = j.operands := by
      refine List.ext_getElem (by simp [hkinds]) fun k hi hj => ?_
      have h1 := hops k _ (List.getElem?_eq_getElem hi)
      have h2 := hjops k _ (List.getElem?_eq_getElem hj)
      exact Option.some.inj (h1.symm.trans h2)
    rw [hfetch, instr_eq_of_operands hkinds hsame]

end Sys2Proof.Machine
end

section
/-! SUPPORT. What an instruction's effect keeps: the faults it takes, and which components it leaves alone. -/

namespace Sys2Proof.Machine

/-- The fault of an effect of a running machine is taken by `State.raise`, and is never `UnsupportedOperation`: no
meaning calls `aluByName` (R163). -/
theorem Effect.faulted {c : Config} {i : Instr} {s t : State} {f : FaultRecord} (h : Effect c i s t)
    (hs : s.status = .running) (ht : t.status = .faulted f) :
    t = s.raise f.fault ∧ ∀ op, f.fault ≠ .unsupportedOperation op := by
  cases h
  case hlt => simp at ht
  case ldi | prn | mul | push | pop | popSkips | call | ret => simp [hs] at ht
  all_goals
    obtain rfl : _ = f := by simpa using ht
    exact ⟨rfl, by simp⟩

/-- What an effect does to the status. -/
theorem Effect.status_cases {c : Config} {i : Instr} {s t : State} (h : Effect c i s t) :
    t.status = s.status ∨ (i = .hlt ∧ t = s.halt) ∨ ∃ f, t = s.raise f := by
  cases h
  case hlt => exact .inr (.inl ⟨rfl, rfl⟩)
  case ldi | prn | mul | push | pop | popSkips | call | ret => exact .inl rfl
  all_goals exact .inr (.inr ⟨_, rfl⟩)

/-- Only PUSH and CALL store, and only to the address below `sp` (R41). -/
theorem Effect.mem_cases {c : Config} {i : Instr} {s t : State} (h : Effect c i s t) :
    t.mem = s.mem ∨
      (i.kind ∈ [Kind.push, .call] ∧ s.sp ≠ 0 ∧ ∃ v, t.mem = s.mem.write s.pushAddr v) := by
  cases h
  case push => exact .inr ⟨by simp [Instr.kind], ‹_›, _, rfl⟩
  case call => exact .inr ⟨by simp [Instr.kind], ‹_›, _, rfl⟩
  all_goals exact .inl rfl

/-- Only the four stack instructions move `sp`, by one (R27). -/
theorem Effect.sp_cases {c : Config} {i : Instr} {s t : State} (h : Effect c i s t) :
    t.sp = s.sp ∨ (t.sp + 1 = s.sp ∧ i.kind ∈ [Kind.push, .call]) ∨
      (t.sp = s.sp + 1 ∧ i.kind ∈ [Kind.pop, .ret]) := by
  cases h
  case push h0 _ | call h0 _ _ => exact .inr (.inl ⟨Nat.sub_add_cancel (Nat.pos_of_ne_zero h0), by simp [Instr.kind]⟩)
  case pop | ret => exact .inr (.inr ⟨rfl, by simp [Instr.kind]⟩)
  all_goals exact .inl rfl

/-- Only PRN emits, and it emits its register (R32). -/
theorem Effect.out_cases {c : Config} {i : Instr} {s t : State} (h : Effect c i s t) :
    t.out = s.out ∨ ∃ j : Fin 8, i = .prn (regByte j) ∧ t.out = s.out ++ [s.reg j] := by
  cases h
  case prn r j hj =>
    obtain rfl : r = regByte j := BitVec.eq_of_toNat_eq (by simpa using hj)
    exact .inr ⟨j, rfl, rfl⟩
  all_goals exact .inl rfl

/-- Only the destination register is written (R22). -/
theorem Effect.reg_other {c : Config} {i : Instr} {s t : State} (h : Effect c i s t) {j : Fin 8}
    (hj : destination i ≠ some (regByte j)) : t.reg j = s.reg j := by
  have other : ∀ {r : Byte} {k : Fin 8}, destination i = some r → r.toNat = k.val → j ≠ k := by
    rintro r k hr hk rfl
    exact hj (hr.trans (congrArg some (BitVec.eq_of_toNat_eq (by simpa using hk))))
  cases h
  case ldi k hk => exact s.setReg_reg_other _ (other rfl hk)
  case mul k _ hk _ => exact s.setReg_reg_other _ (other rfl hk)
  case pop k hk _ => exact State.setReg_reg_other _ _ (other rfl hk)
  all_goals rfl

end Sys2Proof.Machine
end

section
/-! PROOFS. The ranges of the state: every step keeps them (10_state.md R26, R28, R33; 60_exceptions.md R166). -/

namespace Sys2Proof.Machine

/-- A running state has no fault record, so only its ranges count. -/
theorem State.Inv.of_running {t : State} (hmem : t.mem.wf) (hpc : t.pc ≤ memCapacity) (hsp : t.sp ≤ spInit)
    (ht : t.status = .running) : t.Inv :=
  ⟨hmem, hpc, hsp, fun f hf => by simp [ht] at hf⟩

/-- Taking a fault keeps the ranges, and its record's `pc` is the one kept (R166). -/
theorem State.Inv.raise {s : State} (hs : s.Inv) (f : Fault) : (s.raise f).Inv := by
  refine ⟨hs.mem_wf, hs.pc_le, hs.sp_le, fun g hg => ?_⟩
  obtain rfl : _ = g := by simpa using hg
  rfl

/-- A push stores inside memory (R41). -/
theorem State.Inv.pushAddr_lt {s : State} (hs : s.Inv) : s.pushAddr < memCapacity :=
  (Nat.sub_le _ _).trans_lt (Nat.lt_succ_of_le hs.sp_le)

theorem State.Inv.push_wf {s : State} (hs : s.Inv) (v : Byte) : (s.mem.write s.pushAddr v).wf :=
  Memory.write_wf hs.mem_wf hs.pushAddr_lt v

/-- The byte a push stores is read back at its address. -/
theorem State.Inv.push_read? {s : State} (hs : s.Inv) (v : Byte) :
    (s.mem.write s.pushAddr v).read? s.pushAddr = some v :=
  Memory.read?_write_same hs.mem_wf hs.pushAddr_lt v

/-- An instruction that ends inside memory keeps a running state in range. -/
theorem Effect.inv {c : Config} {i : Instr} {s t : State} (h : Effect c i s t) (hs : s.Inv)
    (hrun : s.status = .running) (hfits : s.pc + i.kind.length ≤ memCapacity) : t.Inv := by
  have byte_le : ∀ b : Byte, b.toNat ≤ memCapacity := fun b => b.isLt.le
  have push_le : s.sp - 1 ≤ spInit := (Nat.sub_le _ _).trans hs.sp_le
  cases h
  case hlt => exact ⟨hs.mem_wf, hs.pc_le, hs.sp_le, fun f hf => by simp at hf⟩
  case ldi | prn | mul | popSkips => exact .of_running hs.mem_wf hfits hs.sp_le hrun
  case push => exact .of_running (hs.push_wf _) hfits push_le hrun
  case pop hsp => exact .of_running hs.mem_wf hfits hsp hrun
  case call => exact .of_running (hs.push_wf _) (byte_le _) push_le hrun
  case ret hsp => exact .of_running hs.mem_wf (byte_le _) hsp hrun
  all_goals exact hs.raise _

/-- Every step keeps the state in range, under every configuration. -/
theorem stepUnder_inv {c : Config} {s t : State} (hs : s.Inv) (h : stepUnder c s = .next t) : t.Inv := by
  rcases stepUnder_cases h with ⟨-, rfl⟩ | ⟨-, f, -, rfl⟩ | ⟨hrun, i, hfetch, heffect⟩
  · exact hs
  · exact hs.raise f
  · exact heffect.inv hs hrun (fetch_ok hfetch).2.1

theorem step_inv {s t : State} (hs : s.Inv) (h : step s = .next t) : t.Inv :=
  stepUnder_inv hs (step_arm_stepUnder s ▸ h)

/-- Settles O19: a stopped machine stays, a fault keeps every range, and a fetched instruction ends inside memory, so
its effect keeps them too. -/
theorem stepKeepsTheStateInRange : Obligations.StepKeepsTheStateInRange :=
  ⟨fun _ _ => step_inv, fun _ _ _ => stepUnder_inv⟩

theorem State.reset_inv : State.reset.Inv :=
  .of_running Memory.wf_nil (Nat.zero_le _) le_rfl rfl

theorem Block.reset_inv : Block.reset.Inv :=
  ⟨State.reset_inv, fun _ => rfl⟩

/-- Settles O20: memory is empty, hence canonical, and the other ranges hold of the reset values. -/
theorem resetIsInRange : Obligations.ResetIsInRange :=
  ⟨State.reset_inv, Block.reset_inv⟩

/-- A load writes memory alone, so it keeps the block in range. -/
theorem Block.Inv.loadImage {b : Block} (hb : b.Inv) (image : List Nat) :
    Block.Inv { b with state := b.state.loadImage image } := by
  obtain ⟨⟨hmem, hpc, hsp, hrecord⟩, hloading⟩ := hb
  refine ⟨⟨Memory.load_wf hmem image, hpc, hsp, hrecord⟩, fun hp => ?_⟩
  change State.loadImage b.state image = _
  rw [hloading hp]
  rfl

/-- Settles O21, by the three inputs. -/
theorem hostInputKeepsTheStateInRange : Obligations.HostInputKeepsTheStateInRange := by
  intro input b c hb h
  rcases applyInput_cases h with ⟨-, rfl⟩ | ⟨image, -, -, -, rfl⟩ | ⟨-, hphase, hstep⟩
  · exact Block.reset_inv
  · exact hb.loadImage image
  · exact ⟨step_inv hb.state_inv hstep, fun hp => by simp [hphase] at hp⟩

/-- Settles O5: a stopped machine's step is no step, and a block that still takes loads is running. -/
theorem onlyResetLeavesAStoppedState : Obligations.OnlyResetLeavesAStoppedState := by
  intro b c input hb hstopped h
  have hphase : b.phase = .stepping := by
    cases hp : b.phase with
    | loading => exact absurd (congrArg State.status (hb.loading hp)) hstopped
    | stepping => rfl
  rcases applyInput_cases h with ⟨hinput, rfl⟩ | ⟨image, -, -, hp, -⟩ | ⟨hinput, hc, hstep⟩
  · exact .inl ⟨hinput, rfl⟩
  · simp [hphase] at hp
  · have hsame : c.state = b.state := by
      rw [step, engineStep_stopped _ _ hstopped] at hstep
      simpa using hstep.symm
    refine .inr ⟨hinput, ?_⟩
    obtain ⟨state, phase⟩ := c
    obtain ⟨state', phase'⟩ := b
    simp_all

end Sys2Proof.Machine
end

section
/-! PROOFS. What a step can do, whatever the instruction (40_engine.md R80 to R88). -/

namespace Sys2Proof.Machine

/-- All a step of this hardware can do. -/
theorem step_cases {s t : State} (h : step s = .next t) :
    (s.status ≠ .running ∧ t = s) ∨
      (s.status = .running ∧ ∃ f, fetch Config.hardware s = .error f ∧ t = s.raise f) ∨
      (s.status = .running ∧ ∃ i, fetch Config.hardware s = .ok i ∧ Effect Config.hardware i s t) :=
  stepUnder_cases (step_arm_stepUnder s ▸ h)

theorem step_stopped {s : State} (h : s.status ≠ .running) : step s = .next s :=
  engineStep_stopped _ _ h

theorem exec_next (i : Instr) (s : State) : ∃ t, exec i s = .next t := by
  obtain ⟨t, ht, -⟩ := execUnder_effect Config.hardware i s
  exact ⟨t, (exec_arm_execUnder i s).trans ht⟩

theorem step_next (s : State) : ∃ t, step s = .next t := by
  by_cases hs : s.status = .running
  · cases hfetch : fetch Config.hardware s with
    | ok i =>
      rw [step_of_fetch hs hfetch]
      exact exec_next i s
    | error f => exact ⟨_, step_of_fetch_error hs hfetch⟩
  · exact ⟨s, step_stopped hs⟩

/-- Settles O12: a fault is a next state too, so each outcome of the fetch leads to one. -/
theorem everyStepAnswersANextState : Obligations.EveryStepAnswersANextState :=
  ⟨step_next, exec_next⟩

/-- Settles O52: the core's step always answers, so the input does. -/
theorem stepInputIsOneStepOfTheCore : Obligations.StepInputIsOneStepOfTheCore := by
  intro b
  obtain ⟨t, ht⟩ := step_next b.state
  exact ⟨t, ht, applyInput_step ht⟩

/-- Settles O6: the fetch is the decoding of the bytes at `pc`. -/
theorem stepExecutesTheDecodedInstruction : Obligations.StepExecutesTheDecodedInstruction := by
  intro s i rest hs hdecode
  have hfetch : fetch Config.hardware s = .ok i := by
    rw [decode] at hdecode
    simp only [fetch, hdecode]
  exact step_of_fetch hs hfetch

/-- Settles O7: the bytes standing at `pc` are those the fetch decodes. -/
theorem stepExecutesTheBytesAtPc : Obligations.StepExecutesTheBytesAtPc :=
  fun _ i hs hbytes => step_of_fetch hs (fetch_of_bytes (kindOf_opcodeOf_hardware i.kind) hbytes)

/-- Settles O8: in range, a `pc` above 255 is 256. -/
theorem fetchPastTheEndFaults : Obligations.FetchPastTheEndFaults := by
  intro s hs hrun hpc
  have hpc256 : s.pc = 256 := by
    have hle : s.pc ≤ 256 := hs.pc_le
    omega
  exact ⟨hpc256, by rw [step_of_fetch_error hrun (fetch_past hpc256), State.raise, hpc256]⟩

/-- A byte has no kind on this hardware exactly when it is none of the eight opcodes (R64, R66). -/
theorem kindOf_hardware_eq_none {b : Byte} : Config.hardware.kindOf b = none ↔
    b ∉ [0x01#8, 0x82#8, 0x47#8, 0xA2#8, 0x45#8, 0x46#8, 0x50#8, 0x11#8] := by
  simp [Config.kindOf, Config.opcodeTable, Config.hardware, @eq_comm _ b]

/-- Settles O9: an opcode byte with no row in the map is the fetch's fault. -/
theorem unlistedOpcodeFaults : Obligations.UnlistedOpcodeFaults :=
  fun _ _ hs hread hb => step_of_fetch_error hs (fetch_illegal hread (kindOf_hardware_eq_none.mpr hb))

/-- Settles O10: an operand past the end is the fetch's fault. -/
theorem operandFetchPastTheEndFaults : Obligations.OperandFetchPastTheEndFaults := by
  intro s b k hs hread hkind hend
  refine step_pastEnd hs hkind hread ?_
  simp only [memCapacity, Kind.length]
  omega

/-- Steps of a stopped machine change nothing (R85). -/
theorem run_stopped {s : State} (hs : s.status ≠ .running) (n : Nat) : core.run n s = .next s := by
  induction n with
  | zero => rfl
  | succ n ih =>
    have hstep : core.step s = .next s := step_stopped hs
    simp only [Host.Core.run, hstep, ih]

/-- Settles O11, by induction on the number of steps. -/
theorem stoppedMachineTakesNoStep : Obligations.StoppedMachineTakesNoStep :=
  ⟨fun n _ hs => run_stopped hs n, fun _ t i rest _ ht hdecode =>
    stepExecutesTheDecodedInstruction t i rest ht hdecode⟩

/-- Where a step's fault comes from: it is raised in the state the step began in, and is a fault of the fetch or of the
fetched instruction's effect. -/
theorem stepUnder_faulted {c : Config} {s t : State} {f : FaultRecord} (hs : s.status = .running)
    (h : stepUnder c s = .next t) (ht : t.status = .faulted f) :
    f.pc = s.pc ∧ t = s.raise f.fault ∧ ∀ op, f.fault ≠ .unsupportedOperation op := by
  rcases stepUnder_cases h with ⟨hstopped, -⟩ | ⟨-, g, hfetch, rfl⟩ | ⟨-, i, -, heffect⟩
  · exact absurd hs hstopped
  · obtain rfl : _ = f := by simpa using ht
    refine ⟨rfl, rfl, fun op hop => ?_⟩
    obtain rfl : g = _ := hop
    simpa using fetch_error hfetch
  · obtain ⟨rfl, hop⟩ := heffect.faulted hs ht
    have hrecord : FaultRecord.mk s.pc f.fault = f := by simpa using ht
    exact ⟨by rw [← hrecord], rfl, hop⟩

theorem step_faulted {s t : State} {f : FaultRecord} (hs : s.status = .running) (h : step s = .next t)
    (ht : t.status = .faulted f) : f.pc = s.pc ∧ t = s.raise f.fault ∧ ∀ op, f.fault ≠ .unsupportedOperation op :=
  stepUnder_faulted hs (step_arm_stepUnder s ▸ h) ht

/-- Settles O13: every fault is taken by `State.raise` in the state the step began in. -/
theorem faultsArePrecise : Obligations.FaultsArePrecise := by
  intro s t f hs h ht
  obtain ⟨hpc, rfl, -⟩ := step_faulted hs h ht
  exact ⟨hpc, by rw [State.raise, ← hpc]⟩

/-- Settles O17: neither a fetch nor an effect raises `UnsupportedOperation`; only `aluByName` does. -/
theorem unsupportedOperationIsUnreachable : Obligations.UnsupportedOperationIsUnreachable := by
  refine ⟨fun name a b hadd hmul => ?_, fun a b => ⟨rfl, rfl⟩, fun s t f op hs h ht => ?_⟩
  · simp [aluByName, AluOp.ofName, hadd, hmul]
  · obtain ⟨-, -, hop⟩ := step_faulted hs h ht
    exact hop op

end Sys2Proof.Machine
end

section
/-! PROOFS. Decoding and encoding are each other's inverses (30_encoding.md R61 to R66, R73). -/

namespace Sys2Proof.Machine

/-- An opcode map R73 allows names each kind by its own opcode byte: the first row with that byte is the only one. -/
theorem kindOf_opcodeOf {c : Config} (hc : c.wf) (k : Kind) : c.kindOf (c.opcodeOf k) = some k := by
  have hdistinct : (c.opcodeTable.map (·.1)).Nodup := of_decide_eq_true hc
  have hrow : (c.opcodeOf k, k) ∈ c.opcodeTable := by cases k <;> simp [Config.opcodeTable, Config.opcodeOf]
  obtain ⟨row, hfind⟩ : ∃ row, c.opcodeTable.find? (fun row => row.1 == c.opcodeOf k) = some row :=
    Option.isSome_iff_exists.mp (List.find?_isSome.mpr ⟨_, hrow, by simp⟩)
  have hsame : row = (c.opcodeOf k, k) :=
    List.inj_on_of_nodup_map hdistinct (List.mem_of_find?_eq_some hfind) hrow (by simpa using List.find?_some hfind)
  rw [Config.kindOf, hfind, hsame, Option.map_some]

/-- Settles O45: the opcode byte picks the kind, and the kind's format reads the operands back. -/
theorem decodeOfEncode : Obligations.DecodeOfEncode := by
  intro c i rest hc
  calc decodeUnder c (encodeUnder c i ++ rest)
      = decodeOperands i.kind (i.operands ++ rest) := decodeUnder_of_kindOf (kindOf_opcodeOf hc i.kind) _
    _ = .ok (i, rest) := decodeOperands_operands i rest

/-- Settles O46: a decoded byte sequence begins with its kind's opcode, and its operands are the bytes the format
read. -/
theorem encodeOfDecode : Obligations.EncodeOfDecode := by
  intro c bytes rest i h
  rcases bytes with - | ⟨op, tail⟩
  · simp [decodeUnder] at h
  cases hop : c.kindOf op with
  | none => simp [decodeUnder, hop] at h
  | some k =>
    rw [decodeUnder_of_kindOf hop] at h
    rcases decodeOperands_cases k tail with ⟨j, rest', hdecode, rfl, rfl⟩ | ⟨-, herror⟩
    · obtain ⟨rfl, rfl⟩ : j = i ∧ rest' = rest := by simpa [hdecode] using h
      rw [opcodeOf_of_kindOf hop, encodeUnder, List.cons_append]
    · simp [herror] at h

/-- Settles O48: each word is its instruction's encoding. -/
theorem wordsOfTheTableDecode : Obligations.WordsOfTheTableDecode :=
  ⟨decode_encode .hlt, decode_encode (.ldi 0 8), decode_encode (.prn 0), decode_encode (.mul 0 1),
    decode_encode (.push 3), decode_encode (.pop 3), decode_encode (.call 1), decode_encode .ret⟩

/-- Settles O49: the map's eight bytes are distinct, and a byte has a kind exactly when it is one of them. -/
theorem opcodeMapOfTheHardware : Obligations.OpcodeMapOfTheHardware := by
  refine ⟨by decide, fun _ => kindOf_hardware_eq_none, rfl, rfl, fun k => ?_⟩
  cases k <;> rfl

/-- Bytes laid down at `pc` with room for three of them are the bytes fetched there. -/
theorem fetchBytes_placeBytes {m : Memory} (hm : m.wf) {pc : Nat} (hpc : pc ≤ 253) (a b d : Byte) :
    (m.placeBytes pc [a, b, d]).fetchBytes pc = [a, b, d] := by
  have hread : ∀ k (hk : k < 3), (m.placeBytes pc [a, b, d]).read (pc + k) = [a, b, d][k] := fun k hk =>
    Memory.placeBytes_read hm pc [a, b, d] k hk (by simp only [memCapacity]; omega)
  rw [Memory.fetchBytes_inside _ (by simp only [memCapacity]; omega)]
  exact congrArg₂ List.cons (hread 0 (by decide))
    (congrArg₂ List.cons (hread 1 (by decide)) (congrArg (· :: []) (hread 2 (by decide))))

/-- Settles O50: the three bytes placed are the three fetched. -/
theorem placedWordIsExecutedNext : Obligations.PlacedWordIsExecutedNext := by
  intro s nbits w i hs hpc hword
  have hbytes : (s.withFetchWord nbits w).mem.fetchBytes s.pc = tableBytes nbits w :=
    fetchBytes_placeBytes hs.mem_wf hpc _ _ _
  unfold decodeTableWord at hword
  split at hword
  · rename_i j rest hdecode
    obtain rfl : j = i := by simpa using hword
    exact stepExecutesTheDecodedInstruction _ j rest rfl (by rw [← hdecode, ← hbytes]; rfl)
  · simp at hword

end Sys2Proof.Machine
end

section
/-! PROOFS. The assembler reads back what it is written (30_encoding.md R70, decision D17). -/

namespace Sys2Proof.Machine

/-- A text without spaces: a mnemonic or an operand as written. -/
def Spaceless (text : List Char) : Prop :=
  ∀ ch ∈ text, ch ≠ ' '

/-- A text with no space at either end is left as it is. -/
theorem trimSpaces_of_ends {text : List Char} (hfirst : text.head? ≠ some ' ') (hlast : text.getLast? ≠ some ' ') :
    trimSpaces text = text := by
  have keep : ∀ l : List Char, l.head? ≠ some ' ' → l.dropWhile (· == ' ') = l := by
    intro l hl
    cases l with
    | nil => rfl
    | cons ch rest => exact List.dropWhile_cons_of_neg (by simpa using hl)
  rw [trimSpaces, keep text hfirst, keep text.reverse (by rwa [List.head?_reverse]), List.reverse_reverse]

theorem trimSpaces_of_spaceless {text : List Char} (h : Spaceless text) : trimSpaces text = text :=
  trimSpaces_of_ends (fun hf => h _ (List.mem_of_head? hf) rfl) (fun hl => h _ (List.mem_of_getLast? hl) rfl)

/-- A leading space is taken off. -/
theorem trimSpaces_space_cons (text : List Char) : trimSpaces (' ' :: text) = trimSpaces text := by
  simp [trimSpaces]

/-! ### Decimals -/

theorem digitChar_toNat {n : Nat} (h : n < 10) : (digitChar n).toNat = 48 + n := by
  interval_cases n <;> rfl

/-- A digit reads back. -/
theorem digitValue_digitChar {n : Nat} (h : n < 10) : digitValue (digitChar n) = some n := by
  rw [digitValue, digitChar_toNat h, if_pos (by omega), Nat.add_sub_cancel_left]

theorem readDigits_cons {n : Nat} (h : n < 10) (acc : Nat) (rest : List Char) :
    readDigits acc (digitChar n :: rest) = readDigits (acc * 10 + n) rest := by
  simp only [readDigits, digitValue_digitChar h]

/-- The one to three digits of a number below 1000. -/
theorem decimal_cases {n : Nat} (h : n < 1000) :
    (n < 10 ∧ decimal n = [digitChar n]) ∨
    (∃ a b, a < 10 ∧ b < 10 ∧ n = a * 10 + b ∧ decimal n = [digitChar a, digitChar b]) ∨
    (∃ a b d, a < 10 ∧ b < 10 ∧ d < 10 ∧ n = (a * 10 + b) * 10 + d ∧
      decimal n = [digitChar a, digitChar b, digitChar d]) := by
  unfold decimal
  split
  · exact .inl ⟨‹_›, rfl⟩
  · split
    · exact .inr (.inl ⟨n / 10, n % 10, by omega, by omega, by omega, rfl⟩)
    · exact .inr (.inr ⟨n / 100, n / 10 % 10, n % 10, by omega, by omega, by omega, by omega, rfl⟩)

/-- A decimal reads back. -/
theorem readDigits_decimal {n : Nat} (h : n < 1000) : readDigits 0 (decimal n) = some n := by
  rcases decimal_cases h with ⟨hn, he⟩ | ⟨a, b, ha, hb, rfl, he⟩ | ⟨a, b, d, ha, hb, hd, rfl, he⟩
  · rw [he, readDigits_cons hn, readDigits, Nat.zero_mul, Nat.zero_add]
  · rw [he, readDigits_cons ha, readDigits_cons hb, readDigits, Nat.zero_mul, Nat.zero_add]
  · rw [he, readDigits_cons ha, readDigits_cons hb, readDigits_cons hd, readDigits, Nat.zero_mul, Nat.zero_add]

/-- A decimal is made of digits. -/
theorem decimal_digits {n : Nat} (h : n < 1000) {ch : Char} (hch : ch ∈ decimal n) :
    ∃ d, d < 10 ∧ ch = digitChar d := by
  rcases decimal_cases h with ⟨hn, he⟩ | ⟨a, b, ha, hb, -, he⟩ | ⟨a, b, d, ha, hb, hd, -, he⟩
  · exact ⟨n, hn, by simpa [he] using hch⟩
  · rw [he, List.mem_cons, List.mem_singleton] at hch
    exact hch.elim (⟨a, ha, ·⟩) (⟨b, hb, ·⟩)
  · rw [he, List.mem_cons, List.mem_cons, List.mem_singleton] at hch
    exact hch.elim (⟨a, ha, ·⟩) (·.elim (⟨b, hb, ·⟩) (⟨d, hd, ·⟩))

/-- A decimal holds no character that is no digit, the space and the comma among them. -/
theorem ne_of_mem_decimal {n : Nat} (h : n < 1000) {ch other : Char} (hch : ch ∈ decimal n)
    (hother : other.toNat < 48) :     ch ≠ other := by
  obtain ⟨d, hd, rfl⟩ := decimal_digits h hch
  intro he
  have := digitChar_toNat hd
  rw [he] at this
  omega

theorem decimal_ne_nil (n : Nat) : decimal n ≠ [] := by
  unfold decimal
  split
  · simp
  · split <;> simp

/-! ### Operands -/

theorem byte_lt_1000 (v : Byte) : v.toNat < 1000 :=
  v.isLt.trans (by decide)

/-- An immediate reads back. -/
theorem readImm_decimal (v : Byte) : readImm (decimal v.toNat) = some v := by
  have hv : v.toNat ≤ 255 := Nat.le_of_lt_succ v.isLt
  have hread := readDigits_decimal (byte_lt_1000 v)
  cases htext : decimal v.toNat with
  | nil => exact absurd htext (decimal_ne_nil _)
  | cons ch rest =>
    rw [htext] at hread
    simp [readImm, hread, hv]

/-- A register's name is `R` and one digit. -/
theorem regName_eq {r : Byte} (h : r.toNat < 8) : regName r = ['R', digitChar r.toNat] := by
  rw [regName, decimal, if_pos (by omega)]

/-- A register's name reads back. -/
theorem readRegName_regName {r : Byte} (h : r.toNat < 8) : readRegName (regName r) = some r := by
  simp [regName_eq h, readRegName, digitValue_digitChar (show r.toNat < 10 by omega), nregs, h]

/-- A register's name holds neither space nor comma. -/
theorem ne_of_mem_regName (r : Byte) {ch other : Char} (hch : ch ∈ regName r) (hother : other.toNat < 48) :
    ch ≠ other := by
  rcases List.mem_cons.mp hch with rfl | hch
  · rintro rfl
    exact absurd hother (by decide)
  · exact ne_of_mem_decimal (byte_lt_1000 r) hch hother

/-- One operand, after a space and without a comma, is itself. -/
theorem splitOperands_one {a : List Char} (hspace : Spaceless a) (hcomma : ∀ ch ∈ a, ch ≠ ',') :
    splitOperands (' ' :: a) = [a] := by
  have hspan : (' ' :: a).span (· != ',') = (' ' :: a, []) := by
    rw [List.span_eq_takeWhile_dropWhile, List.takeWhile_eq_self_iff.mpr, List.dropWhile_eq_nil_iff.mpr]
    all_goals simpa using hcomma
  rw [splitOperands, hspan]
  simp only [trimSpaces_space_cons, trimSpaces_of_spaceless hspace]

/-- Two operands, parted by the first comma. -/
theorem splitOperands_two {a b : List Char} (ha : Spaceless a) (hcomma : ∀ ch ∈ a, ch ≠ ',') (hb : Spaceless b) :
    splitOperands (' ' :: a ++ ',' :: b) = [a, b] := by
  have hspan : (' ' :: a ++ ',' :: b).span (· != ',') = (' ' :: a, ',' :: b) := by
    rw [List.span_eq_takeWhile_dropWhile, List.takeWhile_append_of_pos, List.dropWhile_append_of_pos]
    · simp
    all_goals simpa using hcomma
  rw [splitOperands, hspan]
  simp only [trimSpaces_space_cons, trimSpaces_of_spaceless ha, trimSpaces_of_spaceless hb]

/-! ### Lines -/

theorem kindOfMnemonic_mnemonic (k : Kind) : kindOfMnemonic (mnemonic k) = some k := by
  cases k <;> rfl

theorem mnemonic_spaceless (k : Kind) : Spaceless (mnemonic k) := by
  cases k <;> simp [Spaceless, mnemonic]

/-- A mnemonic and operands part at the space between them. -/
theorem span_line (k : Kind) {operands : List Char} (hne : operands ≠ []) (hspace : Spaceless operands) :
    (trimSpaces (mnemonic k ++ ' ' :: operands)).span (· != ' ') = (mnemonic k, ' ' :: operands) := by
  have hfirst : (mnemonic k ++ ' ' :: operands).head? ≠ some ' ' := by cases k <;> simp [mnemonic]
  have hlast : (mnemonic k ++ ' ' :: operands).getLast? ≠ some ' ' := by
    rw [List.getLast?_append, List.getLast?_cons, List.getLast?_eq_some_getLast hne]
    simpa using hspace _ (List.getLast_mem hne)
  rw [trimSpaces_of_ends hfirst hlast, List.span_eq_takeWhile_dropWhile, List.takeWhile_append_of_pos,
    List.dropWhile_append_of_pos]
  · simp
  all_goals simpa [Spaceless] using mnemonic_spaceless k

theorem regName_ne_nil (r : Byte) : regName r ≠ [] :=
  List.cons_ne_nil _ _

theorem regName_spaceless (r : Byte) : Spaceless (regName r) :=
  fun _ hch => ne_of_mem_regName r hch (by decide)

theorem regName_commaless (r : Byte) : ∀ ch ∈ regName r, ch ≠ ',' :=
  fun _ hch => ne_of_mem_regName r hch (by decide)

theorem decimal_spaceless (v : Byte) : Spaceless (decimal v.toNat) :=
  fun _ hch => ne_of_mem_decimal (byte_lt_1000 v) hch (by decide)

/-- A line of one register operand reads back. -/
theorem assemble_oneRegister {i : Instr} {r : Byte} (hr : r.toNat < 8) (hi : i ∈ [.prn r, .push r, .pop r, .call r]) :
    assemble (mnemonic i.kind ++ operandText i) = some i := by
  have hspan := fun k => span_line k (regName_ne_nil r) (regName_spaceless r)
  have hsplit := splitOperands_one (regName_spaceless r) (regName_commaless r)
  have hread := readRegName_regName hr
  simp only [List.mem_cons, List.not_mem_nil, or_false] at hi
  rcases hi with rfl | rfl | rfl | rfl <;>
    simp only [assemble, operandText, hspan, kindOfMnemonic_mnemonic, Instr.kind, hsplit, hread] <;> rfl

/-- A line of two operands, cut at the space and at the comma. -/
theorem splitOperands_register_comma (r : Byte) {b : List Char} (hb : Spaceless b) :
    splitOperands (' ' :: regName r ++ ',' :: b) = [regName r, b] :=
  splitOperands_two (regName_spaceless r) (regName_commaless r) hb

theorem span_line_register_comma (k : Kind) (r : Byte) {b : List Char} (hb : Spaceless b) :
    (trimSpaces (mnemonic k ++ (' ' :: regName r ++ ',' :: b))).span (· != ' ') =
      (mnemonic k, ' ' :: regName r ++ ',' :: b) := by
  refine span_line k (by simp) fun ch hch => ?_
  rcases List.mem_append.mp hch with hch | hch
  · exact regName_spaceless r ch hch
  · rcases List.mem_cons.mp hch with rfl | hch
    · decide
    · exact hb ch hch

/-- Settles O51: the line's mnemonic names the kind, and each operand reads back. -/
theorem assemblyReadsBack : Obligations.AssemblyReadsBack := by
  intro i hi
  refine ⟨mnemonic i.kind ++ operandText i, if_pos hi, ?_⟩
  simp only [Instr.wf, List.all_eq_true, decide_eq_true_eq] at hi
  cases i with
  | hlt => rfl
  | ret => rfl
  | prn r => exact assemble_oneRegister (hi r List.mem_cons_self) (by simp)
  | push r => exact assemble_oneRegister (hi r List.mem_cons_self) (by simp)
  | pop r => exact assemble_oneRegister (hi r List.mem_cons_self) (by simp)
  | call r => exact assemble_oneRegister (hi r List.mem_cons_self) (by simp)
  | ldi r v =>
    have hv := decimal_spaceless v
    simp only [assemble, operandText, span_line_register_comma _ r hv, kindOfMnemonic_mnemonic, Instr.kind,
      splitOperands_register_comma r hv, readRegName_regName (hi r List.mem_cons_self), readImm_decimal]
    rfl
  | mul a b =>
    have hb := regName_spaceless b
    simp only [assemble, operandText, span_line_register_comma _ a hb, kindOfMnemonic_mnemonic, Instr.kind,
      splitOperands_register_comma a hb, readRegName_regName (hi a List.mem_cons_self),
      readRegName_regName (hi b (List.mem_cons_of_mem a List.mem_cons_self))]
    rfl

end Sys2Proof.Machine
end

section
/-! PROOFS. Reset, load and the phase of the block (10_state.md R34, R36; 70_reset_and_hazards.md R191). -/

namespace Sys2Proof.Machine

/-- A number that is a byte's value is the value of its byte. -/
theorem toNat_ofNat_of_le {n : Nat} (h : n ≤ 255) : (BitVec.ofNat 8 n).toNat = n :=
  (BitVec.toNat_ofNat n 8).trans (Nat.mod_eq_of_lt (Nat.lt_succ_of_le h))

/-- An image outside the limits (R191, decision D18). -/
theorem imageWf_eq_false {image : List Nat} (h : 256 < image.length ∨ ∃ v ∈ image, 255 < v) :
    imageWf image = false := by
  rw [Bool.eq_false_iff]
  intro hwf
  obtain ⟨hlen, hvalues⟩ := (imageWf_iff image).mp hwf
  rcases h with h | ⟨v, hv, h⟩
  · exact absurd h hlen.not_gt
  · exact absurd h (hvalues v hv).not_gt

/-- A loaded image is read back (R191). -/
theorem Memory.load_read?_inside {m : Memory} (hm : m.wf) {image : List Nat} (hlen : image.length ≤ 256)
    (hvalues : ∀ v ∈ image, v ≤ 255) {i : Nat} (hi : i < image.length) :
    ((m.load image).read? i).map (·.toNat) = some image[i] := by
  have hcell : i < memCapacity := hi.trans_le hlen
  have hread := Memory.placeBytes_read hm 0 (image.map (BitVec.ofNat 8)) i (by simpa using hi) (by simpa using hcell)
  rw [Nat.zero_add, List.getElem_map] at hread
  have hvalue : image[i] ≤ 255 := hvalues _ (List.getElem_mem hi)
  rw [Memory.load, Memory.read?_inside _ hcell, hread, Option.map_some, toNat_ofNat_of_le hvalue]

/-- A cell past the image reads as before (R191). -/
theorem Memory.load_read?_past (m : Memory) {image : List Nat} {a : Nat} (ha : image.length ≤ a) :
    (m.load image).read? a = m.read? a := by
  have hread := Memory.placeBytes_read_above m 0 (image.map (BitVec.ofNat 8)) (b := a) (by simpa using ha)
  simp only [Memory.read?, Memory.load, hread]

/-- Settles O2: within the limits the load is `State.loadImage`, which writes memory alone. -/
theorem loadPlacesTheImage : Obligations.LoadPlacesTheImage := by
  refine ⟨fun image b hlen hvalues hb hp => ?_, fun image c h => ?_,
    fun image b h => applyInput_load_refused b (imageWf_eq_false h), _, _, rfl, rfl, rfl⟩
  · have hload := applyInput_load_loading ((imageWf_iff image).mpr ⟨hlen, hvalues⟩) hp
    have inside := fun i (hi : i < image.length) =>
      Memory.load_read?_inside hb.state_inv.mem_wf hlen hvalues hi
    exact ⟨_, hload, hp, inside, fun a ha => Memory.load_read?_past _ ha, fun _ => rfl, rfl, rfl, rfl, rfl⟩
  · rcases applyInput_cases h with ⟨hinput, -⟩ | ⟨image', hinput, -, -, rfl⟩ | ⟨hinput, -⟩
    · simp at hinput
    · obtain rfl : image = image' := by simpa using hinput
      refine ⟨fun a ha hlt => ?_, State.reset_reg, rfl, rfl, rfl, rfl⟩
      exact (Memory.load_read?_past _ ha).trans (State.reset_mem_read? hlt)
    · simp at hinput

/-- Inputs are accepted one after another. -/
theorem applyInputs_cons {input : Input} {rest : List Input} {b c : Block}
    (h : applyInputs (input :: rest) b = .next c) :
    ∃ d, applyInput input b = .next d ∧ applyInputs rest d = .next c := by
  rw [applyInputs] at h
  split at h
  · exact ⟨_, ‹_›, h⟩
  · simp at h
  · simp at h

/-- Without a reset, loads keep the phase and a step closes the time for loads. -/
theorem phase_of_applyInputs {inputs : List Input} {b c : Block} (hreset : .reset ∉ inputs)
    (h : applyInputs inputs b = .next c) : c.phase = if .step ∈ inputs then .stepping else b.phase := by
  induction inputs generalizing b with
  | nil =>
    obtain rfl : b = c := by simpa [applyInputs] using h
    rfl
  | cons input rest ih =>
    obtain ⟨d, hd, hrest⟩ := applyInputs_cons h
    have hc := ih (List.not_mem_of_not_mem_cons hreset) hrest
    rcases applyInput_cases hd with ⟨rfl, -⟩ | ⟨image, rfl, -, -, rfl⟩ | ⟨rfl, hphase, -⟩
    · simp at hreset
    · simpa using hc
    · simpa [hphase] using hc

/-- Settles O3: the phase after the inputs says whether a step was among them. -/
theorem loadIsAllowedExactlyUntilTheFirstStep : Obligations.LoadIsAllowedExactlyUntilTheFirstStep := by
  intro b c inputs image hlen hvalues hreset h
  have hwf := (imageWf_iff image).mpr ⟨hlen, hvalues⟩
  obtain ⟨d, hd, hrest⟩ := applyInputs_cons h
  obtain rfl : Block.reset = d := by simpa using hd
  have hphase := phase_of_applyInputs hreset hrest
  refine ⟨fun hstep => ?_, fun hstep => ?_⟩
  · rw [if_neg hstep] at hphase
    exact ⟨_, applyInput_load_loading hwf hphase⟩
  · rw [if_pos hstep] at hphase
    exact applyInput_load_stepping hwf hphase

/-- Settles O4: a step that stays running either leaves `pc` above 0, or leaves `sp` below 255, or is a RET, whose
opcode stands in memory, which is empty at reset. -/
theorem noStepLeadsBackToReset : Obligations.NoStepLeadsBackToReset := by
  intro s t hs hrun h ht
  have hstatus : t.status = .running := ht ▸ rfl
  have hpc : t.pc = 0 := ht ▸ rfl
  have hsp : t.sp = 255 := ht ▸ rfl
  have hmem : t.mem = [] := ht ▸ rfl
  have hsp_le : s.sp ≤ 255 := hs.sp_le
  clear ht
  rcases step_cases h with ⟨hstopped, -⟩ | ⟨-, f, -, rfl⟩ | ⟨-, i, hfetch, heffect⟩
  · exact hstopped hrun
  · simp at hstatus
  · cases heffect
    case hlt => simp at hstatus
    case ldi | prn | mul | push | pop | popSkips => simp [Kind.length] at hpc
    case call => simp only [State.jump_sp] at hsp; omega
    case ret =>
      have hop := read?_pc_of_fetch hfetch
      simp only [State.jump_mem] at hmem
      simp [Memory.read?_eq_some, hmem, Memory.unlisted, Config.opcodeOf, Config.hardware, Instr.kind] at hop
    all_goals simp at hstatus

end Sys2Proof.Machine
end

section
/-! PROOFS. Where `pc` goes, and which faults a step reports (40_engine.md R84, R87; 60_exceptions.md R160 to R164). -/

namespace Sys2Proof.Machine

/-- A byte that names a register is that register's byte (R62). -/
theorem eq_regByte {r : Byte} {i : Fin 8} (h : r.toNat = i.val) : r = regByte i :=
  BitVec.eq_of_toNat_eq (h.trans (regByte_toNat i).symm)

/-- An effect without a fault advances past LDI, PRN, MUL, PUSH and POP (R84). -/
theorem Effect.pc_of_advance {c : Config} {i : Instr} {s t : State} (h : Effect c i s t)
    (ht : ∀ f, t.status ≠ .faulted f) (hi : i.kind ∈ [Kind.ldi, .prn, .mul, .push, .pop]) :
    t.pc = s.pc + i.kind.length := by
  cases h
  case hlt | call | ret => simp [Instr.kind] at hi
  case ldi | prn | mul | push | pop | popSkips => rfl
  all_goals exact absurd rfl (ht _)

/-- CALL without a fault goes to its register's value (R140). -/
theorem Effect.pc_of_call {c : Config} {r : Byte} {s t : State} (h : Effect c (.call r) s t)
    (ht : ∀ f, t.status ≠ .faulted f) : ∃ i : Fin 8, r = regByte i ∧ t.pc = (s.reg i).toNat := by
  cases h
  case call i hi _ _ _ => exact ⟨i, eq_regByte hi, rfl⟩
  all_goals exact absurd rfl (ht _)

/-- RET without a fault goes to the byte at `sp` (R141). -/
theorem Effect.pc_of_ret {c : Config} {s t : State} (h : Effect c .ret s t) (ht : ∀ f, t.status ≠ .faulted f) :
    t.pc = (s.mem.read s.sp).toNat := by
  cases h
  case ret => rfl
  all_goals exact absurd rfl (ht _)

/-- HLT has one effect (R150). -/
theorem Effect.eq_halt {c : Config} {s t : State} (h : Effect c .hlt s t) : t = s.halt := by
  cases h
  case hlt => rfl
  case badIndex hi => simp [Instr.regOperands] at hi

/-- Settles O14: the fetched instruction has the opcode's kind and ends inside memory, and its effect says where `pc`
goes. -/
theorem advanceOfPc : Obligations.AdvanceOfPc := by
  intro c s t b k hs hrun hread hk h ht
  rcases stepUnder_cases h with ⟨hstopped, -⟩ | ⟨-, f, -, rfl⟩ | ⟨-, i, hfetch, heffect⟩
  · exact absurd hrun hstopped
  · exact absurd rfl (ht _)
  obtain ⟨hkind, hfits, hops⟩ := fetch_ok hfetch
  obtain ⟨-, rfl⟩ := Memory.read?_eq_some.mp hread
  obtain rfl : i.kind = k := by simpa [hk] using hkind.symm
  refine ⟨fun hi => ?_, fun hi => ?_, fun hi => ?_, fun hi => ?_⟩
  · have hpc := heffect.pc_of_advance ht hi
    have hlen : 2 ≤ i.kind.length := by
      revert hi
      cases i.kind <;> decide
    simp only [memCapacity] at hfits
    simp only [Kind.length] at hpc hfits hlen
    omega
  · cases i <;> simp only [Instr.kind, reduceCtorEq] at hi
    obtain ⟨j, rfl, hpc⟩ := heffect.pc_of_call ht
    exact ⟨j, hops 0 _ rfl, hpc⟩
  · cases i <;> simp only [Instr.kind, reduceCtorEq] at hi
    exact heffect.pc_of_ret ht
  · cases i <;> simp only [Instr.kind, reduceCtorEq] at hi
    rw [heffect.eq_halt]
    exact ⟨rfl, rfl⟩

/-- CALL with no room takes the push's fault once its register and its link byte are in order (R87). -/
theorem callUnder_full {k : CallLinkage} {s : State} {r : Byte} {i : Fin 8} (hr : r.toNat = i.val)
    (hlink : k = .observed ∨ s.pc + 2 ≤ 255) (hsp : s.sp = 0) :
    callUnder k r s = .next (s.raise (.outOfBounds .mem (-1))) := by
  rcases linkByte_cases k (s.reg i) s with ⟨-, hl⟩ | ⟨-, -, hl⟩ | ⟨rfl, hp, -⟩
  · exact callUnder_pushFaults k s hr hl (s.pushByte_full _ hsp)
  · exact callUnder_pushFaults k s hr hl (s.pushByte_full _ hsp)
  · rcases hlink with hlink | hlink
    · simp at hlink
    · omega

/-- CALL under the conventional linkage checks its return address before the stack (R87, decision D19). -/
theorem callUnder_unstorable {s : State} {r : Byte} {i : Fin 8} (hr : r.toNat = i.val) (hp : 255 < s.pc + 2) :
    callUnder .conventional r s = .next (s.raise (.outOfBounds .mem (s.pc + 2 : Nat))) := by
  rcases linkByte_cases .conventional (s.reg i) s with ⟨hk, -⟩ | ⟨-, hle, -⟩ | ⟨-, -, hl⟩
  · simp at hk
  · omega
  · exact callUnder_linkFaults _ s hr hl

/-- Settles O15, by the fetch's faults and each meaning's own. -/
theorem firstFaultOfTheOrder : Obligations.FirstFaultOfTheOrder := by
  refine ⟨fun c s hs hpc => stepUnder_of_fetch_error hs (fetch_past hpc),
    fun c s b hs hread hb => stepUnder_of_fetch_error hs (fetch_illegal hread hb),
    fun c s b k hs hread hk hend => stepUnder_of_fetch_error hs (fetch_pastEnd hk hread ?_),
    fun c s i r hi hr => ?_, fun c s a b ha => execMul_badIndexA s b ha,
    fun c s a b ha hb => execMul_badIndexB s (i := ⟨a.toNat, ha⟩) rfl hb,
    fun c s r hc hr hp => ?_, fun c s r hr hsp => ?_, fun c s r hsp => ⟨fun hr hc => ?_, execRet_empty s hsp⟩⟩
  · simp only [memCapacity, Kind.length]
    omega
  · simp only [List.mem_cons, List.not_mem_nil, or_false] at hi
    rcases hi with (rfl | rfl | rfl | rfl) | ⟨v, rfl⟩
    · exact execPrn_badIndex s hr
    · exact execPush_badIndex s hr
    · exact popUnder_badIndex _ s hr
    · exact callUnder_badIndex _ s hr
    · exact execLdi_badIndex s v hr
  · rw [execUnder, hc]
    exact callUnder_unstorable (i := ⟨r.toNat, hr⟩) rfl hp
  · exact ⟨execPush_full s (i := ⟨r.toNat, hr⟩) rfl hsp, fun hlink =>
      callUnder_full (i := ⟨r.toNat, hr⟩) rfl hlink hsp⟩
  · rw [execUnder, hc]
    exact popUnder_emptyFaults s (i := ⟨r.toNat, hr⟩) rfl hsp

/-- In range, a fault an effect takes is one of the listed ones. -/
theorem Effect.reportable {c : Config} {i : Instr} {s t : State} {f : FaultRecord} (h : Effect c i s t) (hs : s.Inv)
    (hrun : s.status = .running) (hfits : s.pc + i.kind.length ≤ memCapacity) (ht : t.status = .faulted f) :
    Reportable c f.fault := by
  have hsp : s.sp ≤ 255 := hs.sp_le
  cases h
  case hlt => simp at ht
  case ldi | prn | mul | push | pop | popSkips | call | ret => simp [hrun] at ht
  case pushAboveMemory | popAboveMemory | callAboveMemory | retAboveMemory => simp only [memCapacity] at *; omega
  all_goals obtain rfl : _ = f := by simpa using ht
  case badIndex r hr _ => exact .register r hr
  case pushFull | callFull => exact .belowZero
  case popEmpty => exact .popEmpty ‹_›
  case retEmpty => exact .retEmpty
  case callLink hp =>
    have hpc : (s.pc : Int) + 2 = 256 := by
      simp only [memCapacity, Kind.length, Kind.arity, Instr.kind] at hfits
      omega
    rw [hpc]
    exact .pastEnd

/-- Settles O16: a fetch raises the first two kinds of fault only, and an instruction the others. -/
theorem onlyTheListedFaultsOccur : Obligations.OnlyTheListedFaultsOccur := by
  intro c s t f hs hrun h ht
  rcases stepUnder_cases h with ⟨hstopped, -⟩ | ⟨-, g, hfetch, rfl⟩ | ⟨-, i, hfetch, heffect⟩
  · exact absurd hrun hstopped
  · obtain rfl : _ = f := by simpa using ht
    rcases fetch_error hfetch with ⟨hpc, rfl⟩ | ⟨b, hb, rfl⟩ | rfl
    · rw [le_antisymm hs.pc_le hpc]
      exact .pastEnd
    · exact .illegal b hb
    · exact .pastEnd
  · exact heffect.reportable hs hrun (fetch_ok hfetch).2.1 ht

/-- Settles O18: the three views are read off the fault. -/
theorem faultRecordFields : Obligations.FaultRecordFields :=
  ⟨fun _ _ => ⟨rfl, rfl, rfl⟩, fun _ => ⟨rfl, rfl, rfl⟩, fun _ => ⟨rfl, rfl, rfl⟩, fun _ => ⟨rfl, rfl, rfl⟩⟩

end Sys2Proof.Machine
end

section
/-! PROOFS. What a step leaves alone, and whole runs (10_state.md R27, R32, R41; 70_reset_and_hazards.md R198). -/

namespace Sys2Proof.Machine

/-- Settles O22: only PRN's effect appends, and its opcode and operand are those fetched. -/
theorem onlyPrnChangesTheOutput : Obligations.OnlyPrnChangesTheOutput := by
  intro s t h
  rcases step_cases h with ⟨-, rfl⟩ | ⟨-, f, -, rfl⟩ | ⟨-, i, hfetch, heffect⟩
  · exact .inl rfl
  · exact .inl rfl
  · rcases heffect.out_cases with hout | ⟨j, rfl, hout⟩
    · exact .inl hout
    · obtain ⟨-, -, hops⟩ := fetch_ok hfetch
      exact .inr ⟨j, read?_pc_of_fetch hfetch, hops 0 _ rfl, hout⟩

/-- Settles O23: only the effects of the four stack instructions move `sp`, and their opcode is the one fetched. -/
theorem onlyStackInstructionsMoveSp : Obligations.OnlyStackInstructionsMoveSp := by
  intro s t h
  rcases step_cases h with ⟨-, rfl⟩ | ⟨-, f, -, rfl⟩ | ⟨-, i, hfetch, heffect⟩
  · exact .inl rfl
  · exact .inl rfl
  · have hop := read?_pc_of_fetch hfetch
    rcases heffect.sp_cases with hsp | ⟨hsp, hi⟩ | ⟨hsp, hi⟩
    · exact .inl hsp
    · refine .inr (.inl ⟨hsp, ?_⟩)
      simp only [List.mem_cons, List.not_mem_nil, or_false] at hi
      rcases hi with hi | hi <;> rw [hi] at hop
      · exact .inl hop
      · exact .inr hop
    · refine .inr (.inr ⟨hsp, ?_⟩)
      simp only [List.mem_cons, List.not_mem_nil, or_false] at hi
      rcases hi with hi | hi <;> rw [hi] at hop
      · exact .inl hop
      · exact .inr hop

/-- The one address an effect may store to is `s.pushAddr` (R41). -/
theorem Effect.read?_other {c : Config} {i : Instr} {s t : State} (h : Effect c i s t) {a : Nat}
    (ha : a ≠ s.pushAddr) : t.mem.read? a = s.mem.read? a := by
  rcases h.mem_cases with hmem | ⟨-, -, v, hmem⟩
  · rw [hmem]
  · rw [hmem, Memory.read?_write_other _ _ ha]

/-- Settles O24: a push stores below `sp`, which is at most 255. -/
theorem cellAtTheTopIsNeverStoredTo : Obligations.CellAtTheTopIsNeverStoredTo := by
  intro s t hs h
  rcases step_cases h with ⟨-, rfl⟩ | ⟨-, f, -, rfl⟩ | ⟨-, i, -, heffect⟩
  · rfl
  · rfl
  · have hsp : s.sp ≤ 255 := hs.sp_le
    exact heffect.read?_other (by rw [State.pushAddr]; omega)

/-! ### The output is written and never read -/

/-- The state with bytes put before its output. -/
def State.outAfter (before : List Byte) (s : State) : State :=
  { s with out := before ++ s.out }

/-- A program that ends in the same state or fault, but for the output, completes the same way. -/
theorem complete_outAfter {before : List Byte} {s t : State} {r r' : Except Fault State}
    (hr : r' = r.map (State.outAfter before)) (h : complete s r = .next t) :
    complete (s.outAfter before) r' = .next (t.outAfter before) := by
  subst hr
  rcases complete_cases h with rfl | ⟨f, rfl, rfl⟩ <;> rfl

theorem readReg_outAfter (before : List Byte) (s : State) (r : Byte) : (s.outAfter before).readReg r = s.readReg r :=
  rfl

theorem pushByte_outAfter (before : List Byte) (s : State) (v : Byte) :
    (s.outAfter before).pushByte v = (s.pushByte v).map (State.outAfter before) := by
  simp only [State.pushByte, State.memWrite, apply_ite (Except.map (State.outAfter before))]
  rfl

theorem popByte_outAfter (before : List Byte) (s : State) :
    (s.outAfter before).popByte = s.popByte.map (Prod.map id (State.outAfter before)) := by
  have hread : (s.outAfter before).memRead (s.outAfter before).sp = s.memRead s.sp := rfl
  simp only [State.popByte, hread, bind, Except.bind]
  cases s.memRead s.sp <;> rfl

/-- Executing an instruction does not read the output. -/
theorem exec_outAfter {before : List Byte} {i : Instr} {s t : State} (h : exec i s = .next t) :
    exec i (s.outAfter before) = .next (t.outAfter before) := by
  cases i with
  | hlt => exact complete_outAfter (s := s) (r := .ok s.halt) rfl h
  | ldi r v =>
    refine complete_outAfter ?_ h
    simp only [State.writeReg, bind, Except.bind]
    cases regIndex r <;> rfl
  | prn r =>
    refine complete_outAfter ?_ h
    simp only [readReg_outAfter, bind, Except.bind]
    cases s.readReg r with
    | error f => rfl
    | ok v =>
      have hout : before ++ s.out ++ [v] = before ++ (s.out ++ [v]) := List.append_assoc ..
      exact congrArg (fun out => Except.ok (State.advance { s with out := out } .prn)) hout
  | mul a b =>
    refine complete_outAfter ?_ h
    simp only [readReg_outAfter, State.writeReg, bind, Except.bind]
    cases s.readReg a <;> cases s.readReg b <;> cases regIndex a <;> rfl
  | push r =>
    refine complete_outAfter ?_ h
    simp only [readReg_outAfter, pushByte_outAfter, bind, Except.bind]
    cases s.readReg r with
    | error f => rfl
    | ok v =>
      dsimp only
      cases s.pushByte v <;> rfl
  | pop r =>
    refine complete_outAfter ?_ h
    have hempty : (s.outAfter before).stackEmpty = s.stackEmpty := rfl
    simp only [popByte_outAfter, hempty, bind, Except.bind]
    cases regIndex r with
    | error f => rfl
    | ok i =>
      cases s.stackEmpty with
      | true => rfl
      | false =>
        dsimp only
        cases s.popByte <;> rfl
  | call r =>
    refine complete_outAfter ?_ h
    have hlink : ∀ target u, linkByte Config.hardware.callLinkage target u = .ok target := fun _ _ => rfl
    simp only [readReg_outAfter, pushByte_outAfter, hlink, bind, Except.bind]
    cases s.readReg r with
    | error f => rfl
    | ok v =>
      dsimp only
      cases s.pushByte v <;> rfl
  | ret =>
    refine complete_outAfter ?_ h
    have hempty : (s.outAfter before).stackEmpty = s.stackEmpty := rfl
    simp only [popByte_outAfter, hempty, bind, Except.bind]
    cases s.stackEmpty with
    | true => rfl
    | false => cases s.popByte <;> rfl

/-- Settles O25: the fetch reads memory and `pc`, and the fetched instruction does not read the output. -/
theorem outputIsNeverRead : Obligations.OutputIsNeverRead := by
  intro s t before h
  change step (s.outAfter before) = .next (t.outAfter before)
  by_cases hs : s.status = .running
  · have hs' : (s.outAfter before).status = .running := hs
    have hfetch : fetch Config.hardware (s.outAfter before) = fetch Config.hardware s := rfl
    cases hf : fetch Config.hardware s with
    | ok i =>
      rw [step_of_fetch hs hf] at h
      rw [step_of_fetch hs' (hfetch.trans hf), exec_outAfter h]
    | error f =>
      obtain rfl : s.raise f = t := by simpa [step_of_fetch_error hs hf] using h
      rw [step_of_fetch_error hs' (hfetch.trans hf)]
      rfl
  · obtain rfl : s = t := by simpa [step_stopped hs] using h
    exact step_stopped hs

/-! ### A host's run -/

theorem runHost_halted (n : Nat) {s : State} (hs : s.status = .halted) : runHost n s = .halted s := by
  cases n <;> simp only [runHost, hs]

theorem runHost_faulted (n : Nat) {s : State} {f : FaultRecord} (hs : s.status = .faulted f) :
    runHost n s = .faulted f s := by
  cases n <;> simp only [runHost, hs]

theorem runHost_zero {s : State} (hs : s.status = .running) : runHost 0 s = .timeout s := by
  simp only [runHost, hs]

theorem runHost_succ {s t : State} (n : Nat) (hs : s.status = .running) (h : step s = .next t) :
    runHost (n + 1) s = runHost n t := by
  simp only [runHost, hs, h]

/-- Settles O27, by induction on the limit. -/
theorem runEndsAsTheStatusSays : Obligations.RunEndsAsTheStatusSays := by
  intro n
  induction n with
  | zero =>
    intro s
    refine ⟨s, rfl, ?_⟩
    cases hs : s.status with
    | running => exact .inr (.inr ⟨rfl, runHost_zero hs⟩)
    | halted => exact .inl ⟨rfl, runHost_halted 0 hs⟩
    | faulted f => exact .inr (.inl ⟨f, rfl, runHost_faulted 0 hs⟩)
  | succ n ih =>
    intro s
    cases hs : s.status with
    | running =>
      obtain ⟨t, ht⟩ := step_next s
      have hcore : core.step s = .next t := ht
      simp only [Host.Core.run, hcore, runHost_succ n hs ht]
      exact ih t
    | halted => exact ⟨s, run_stopped (by simp [hs]) _, .inl ⟨hs, runHost_halted _ hs⟩⟩
    | faulted f => exact ⟨s, run_stopped (by simp [hs]) _, .inr (.inl ⟨f, hs, runHost_faulted _ hs⟩)⟩

/-- A run that has ended within a limit ends the same way within every greater one. -/
theorem runHost_of_le {n m : Nat} {s : State} (hend : ∀ t, runHost n s ≠ .timeout t) (hnm : n ≤ m) :
    runHost m s = runHost n s := by
  induction n generalizing m s with
  | zero =>
    cases hs : s.status with
    | running => exact absurd (runHost_zero hs) (hend s)
    | halted => rw [runHost_halted m hs, runHost_halted 0 hs]
    | faulted f => rw [runHost_faulted m hs, runHost_faulted 0 hs]
  | succ n ih =>
    obtain ⟨m, rfl⟩ : ∃ k, m = k + 1 := ⟨m - 1, by omega⟩
    cases hs : s.status with
    | running =>
      obtain ⟨t, ht⟩ := step_next s
      rw [runHost_succ n hs ht] at hend ⊢
      rw [runHost_succ m hs ht]
      exact ih hend (Nat.le_of_succ_le_succ hnm)
    | halted => rw [runHost_halted _ hs, runHost_halted _ hs]
    | faulted f => rw [runHost_faulted _ hs, runHost_faulted _ hs]

/-- Settles O28: both ends are the end within the greater of the two limits. -/
theorem runWithoutLimitHasOneEnd : Obligations.RunWithoutLimitHasOneEnd := by
  rintro s e e' ⟨n, rfl, hn⟩ ⟨m, rfl, hm⟩
  calc runHost n s
      = runHost (max n m) s := (runHost_of_le hn (Nat.le_max_left n m)).symm
    _ = runHost m s := runHost_of_le hm (Nat.le_max_right n m)

end Sys2Proof.Machine
end

section
/-! PROOFS. The stack instructions, CALL, RET and HLT (43_stack.md R130, R131; 44_call_return.md R140, R141;
45_halt.md R150), and the frames of all instructions. -/

namespace Sys2Proof.Machine

/-- Settles O32: with room PUSH writes the address below `sp`; PUSH is two bytes long, so at 255 it reaches past the
end. -/
theorem pushStoresTheRegister : Obligations.PushStoresTheRegister := by
  refine ⟨fun s r i hs h h0 => ?_, fun s r h => execPush_badIndex s h,
    fun s r h h0 => execPush_full s (i := ⟨r.toNat, h⟩) rfl h0,
    fun r => ⟨rfl, decode_encode (.push r)⟩, fun s hs hread hpc => ?_⟩
  · have hpush := execPush_ok s h h0 (hs.sp_le.trans (by decide))
    exact ⟨_, hpush, rfl, rfl, hs.push_read? _, fun _ ha => Memory.read?_write_other s.mem _ ha, rfl, fun _ => rfl,
      rfl, rfl⟩
  · have hend : memCapacity < s.pc + Kind.push.length := by rw [hpc]; decide
    exact step_pastEnd hs (kindOf_opcodeOf_hardware .push) hread hend

/-- On a stack that is not empty POP does not depend on `POP_ON_EMPTY` (R131). -/
theorem popUnder_of_nonempty (k k' : PopOnEmpty) {s : State} (r : Byte) (h : s.sp ≠ 255) :
    popUnder k r s = popUnder k' r s := by
  simp [popUnder, s.stackEmpty_false h]

/-- Settles O33: POP reads the byte at `sp` and writes its register; the configuration counts on the empty stack
alone. -/
theorem popLoadsTheStackTop : Obligations.PopLoadsTheStackTop := by
  refine ⟨fun s r i h hsp => ?_, fun s r h => popUnder_badIndex .fault s h,
    fun s r h hsp => popUnder_emptyFaults s (i := ⟨r.toNat, h⟩) rfl hsp, fun c s r hc h hsp => ?_,
    fun c s r hc => ?_, fun r => ⟨rfl, decode_encode (.pop r)⟩, fun s hs hread hpc => ?_⟩
  · refine ⟨_, popUnder_ok .fault s h hsp, ?_, fun j hj => State.setReg_reg_other _ _ hj, rfl, rfl, rfl, rfl, rfl⟩
    rw [State.advance_reg, State.setReg_reg_same]
    exact Memory.read?_inside _ (hsp.trans (by decide))
  · rw [execUnder, hc]
    exact popUnder_emptySkips s (i := ⟨r.toNat, h⟩) rfl hsp
  · change popUnder c.popOnEmpty r s = popUnder .fault r s
    rcases hc with hsp | hc
    · exact popUnder_of_nonempty _ _ r hsp
    · rw [hc]
  · have hend : memCapacity < s.pc + Kind.pop.length := by rw [hpc]; decide
    exact step_pastEnd hs (kindOf_opcodeOf_hardware .pop) hread hend

/-- CALL with room and a link byte: the byte below `sp`, and `pc` at the register's value (R140). -/
theorem callUnder_frame {k : CallLinkage} {s : State} {r v : Byte} {i : Fin 8} (hs : s.Inv) (h : r.toNat = i.val)
    (h0 : s.sp ≠ 0) (hlink : linkByte k (s.reg i) s = .ok v) :
    ∃ t, callUnder k r s = .next t ∧ t.pc = (s.reg i).toNat ∧ t.sp = s.sp - 1 ∧ s.pushAddr = t.sp ∧
      t.mem.read? s.pushAddr = some v ∧ (∀ a, a ≠ s.pushAddr → t.mem.read? a = s.mem.read? a) ∧
      (∀ j, t.reg j = s.reg j) ∧ t.status = s.status ∧ t.out = s.out := by
  have hcall := callUnder_ok k s h hlink h0 (hs.sp_le.trans (by decide))
  exact ⟨_, hcall, rfl, rfl, rfl, hs.push_read? v, fun _ ha => Memory.read?_write_other s.mem v ha, fun _ => rfl, rfl,
    rfl⟩

/-- The link byte of the conventional linkage, where it can be stored, is the address after the CALL (R140). -/
theorem linkByte_conventional {s : State} (target : Byte) (hpc : s.pc + 2 ≤ 255) :
    ∃ v, linkByte .conventional target s = .ok v ∧ v.toNat = s.pc + 2 := by
  rcases linkByte_cases .conventional target s with ⟨hk, -⟩ | ⟨-, -, hl⟩ | ⟨-, hp, -⟩
  · simp at hk
  · exact ⟨_, hl, toNat_ofNat_of_le hpc⟩
  · omega

/-- Settles O34: the linkages differ in the link byte alone. -/
theorem callPushesAndJumps : Obligations.CallPushesAndJumps := by
  refine ⟨fun s r i hs h h0 => callUnder_frame hs h h0 rfl, fun c s r i hc hs h h0 hpc => ?_,
    fun c s r h => callUnder_badIndex _ s h, fun c s r hc h hpc => ?_,
    fun c s r hlink h hsp => callUnder_full (i := ⟨r.toNat, h⟩) rfl hlink hsp, fun c s r hc => ?_,
    fun r => ⟨rfl, decode_encode (.call r)⟩, fun s hs hread hpc => ?_⟩
  · obtain ⟨v, hlink, hv⟩ := linkByte_conventional (s.reg i) hpc
    obtain ⟨t, ht, hpc', hsp, haddr, hread, hrest⟩ := callUnder_frame hs h h0 hlink
    exact ⟨t, by rw [execUnder, hc, ht], hpc', hsp, haddr, by rw [hread, Option.map_some, hv], hrest⟩
  · rw [execUnder, hc]
    have hfault := callUnder_unstorable (s := s) (r := r) (i := ⟨r.toNat, h⟩) rfl (by omega)
    rw [hpc] at hfault
    exact hfault
  · rw [execUnder, hc]
    rfl
  · have hend : memCapacity < s.pc + Kind.call.length := by rw [hpc]; decide
    exact step_pastEnd hs (kindOf_opcodeOf_hardware .call) hread hend

/-- Settles O35: RET reads the byte at `sp`; it is one byte long, so at 255 it reads nothing beyond. -/
theorem retPopsThePc : Obligations.RetPopsThePc := by
  refine ⟨fun s hsp => ?_, fun s hsp => execRet_empty s hsp, fun c s => rfl, ⟨rfl, decode_encode .ret⟩,
    fun s hs hpc hread => step_of_fetch hs (fetch_255 hpc hread (decode_encode .ret))⟩
  refine ⟨_, execRet_ok s hsp, ?_, rfl, rfl, fun _ => rfl, rfl, rfl⟩
  rw [Memory.read?_inside _ (hsp.trans (by decide))]
  rfl

/-- Settles O36: HLT stops the machine, and a stopped machine takes no step. -/
theorem hltHalts : Obligations.HltHalts := by
  refine ⟨fun s => execHlt_ok s, fun s t n h => ?_, ⟨rfl, decode_encode .hlt⟩,
    fun s hs hpc hread => step_of_fetch hs (fetch_255 hpc hread (decode_encode .hlt))⟩
  have ht : t = s.halt := (effect_of_exec h).eq_halt
  exact run_stopped (by simp [ht]) n

/-- An effect leaves the status alone or takes a fault at `pc`, HLT's aside. -/
theorem Effect.status_of_ne_hlt {c : Config} {i : Instr} {s t : State} (h : Effect c i s t) (hi : i.kind ≠ .hlt) :
    t.status = s.status ∨ ∃ f, t.status = .faulted { pc := s.pc, fault := f } := by
  rcases h.status_cases with hstatus | ⟨rfl, -⟩ | ⟨f, rfl⟩
  · exact .inl hstatus
  · exact absurd rfl hi
  · exact .inr ⟨f, rfl⟩

/-- Settles O37, component by component. -/
theorem frameOfInstructionsThatStoreNothing : Obligations.FrameOfInstructionsThatStoreNothing := by
  intro i s t hi h
  have heffect := effect_of_exec h
  refine ⟨fun a => ?_, fun j hj => heffect.reg_other hj, fun hpop hret => ?_, fun hprn => ?_,
    fun hhlt => heffect.status_of_ne_hlt hhlt⟩
  · rcases heffect.mem_cases with hmem | ⟨hk, -⟩
    · rw [hmem]
    · exact absurd hk (by revert hi; cases i.kind <;> decide)
  · rcases heffect.sp_cases with hsp | ⟨-, hk⟩ | ⟨-, hk⟩
    · exact hsp
    · exact absurd hk (by revert hi; cases i.kind <;> decide)
    · simp [hpop, hret] at hk
  · rcases heffect.out_cases with hout | ⟨j, rfl, -⟩
    · exact hout
    · exact absurd rfl hprn

/-- Settles O38, component by component. -/
theorem frameOfPushAndCall : Obligations.FrameOfPushAndCall := by
  intro i s t hi h
  have heffect := effect_of_exec h
  have hkind : ∀ k, k ∉ [Kind.push, .call] → i.kind ≠ k := fun k hk he => hk (he ▸ hi)
  have hdest : destination i = none := by cases i <;> simp [Instr.kind, destination] at hi ⊢
  refine ⟨fun a ha => heffect.read?_other ha, fun j => heffect.reg_other (by simp [hdest]), ?_, ?_,
    heffect.status_of_ne_hlt (hkind _ (by decide))⟩
  · rcases heffect.out_cases with hout | ⟨j, rfl, -⟩
    · exact hout
    · exact absurd rfl (hkind .prn (by decide))
  · rcases heffect.sp_cases with hsp | ⟨hsp, -⟩ | ⟨-, hk⟩
    · exact .inl hsp
    · exact .inr hsp
    · exact absurd hi (by revert hk; cases i.kind <;> decide)

/-- The ALU does not care for the order of its operands (R112). -/
theorem alu_comm (op : AluOp) (a b : Byte) : alu op a b = alu op b a := by
  cases op with
  | add => simp only [alu, Nat.add_comm]
  | mul => simp only [alu, Nat.mul_comm]

/-- Settles O39: the ALU answers the low 8 bits of the exact result, and the corner cases compute. -/
theorem aluWrapsModulo256 : Obligations.AluWrapsModulo256 := by
  refine ⟨fun a b => ⟨alu_mul_toNat a b, alu_comm .mul a b⟩,
    fun a b => ⟨BitVec.toNat_ofNat (a.toNat + b.toNat) 8, alu_comm .add a b⟩,
    fun b => ⟨by simp [alu], by simp [alu]⟩, ?_⟩
  decide

/-- Settles O44: only POP's and CALL's arms of `execUnder` name the configuration. -/
theorem hardwareIsOneConfiguration : Obligations.HardwareIsOneConfiguration := by
  refine ⟨step_arm_stepUnder, exec_arm_execUnder, fun c d i s hpop hcall => ?_, rfl, rfl⟩
  cases i with
  | pop r => exact absurd rfl hpop
  | call r => exact absurd rfl hcall
  | _ => rfl

end Sys2Proof.Machine
end

section
/-! PROOFS. Instructions one after another: a pushed byte is fetched, a CALL is returned from, the stack law
(20_memory.md R51; 44_call_return.md; 43_stack.md R132). -/

namespace Sys2Proof.Machine

/-- After a PUSH that leaves the machine running, the register's value stands at `sp` (R130). -/
theorem read?_sp_of_exec_push {s t : State} {i : Fin 8} (hs : s.Inv) (h : exec (.push (regByte i)) s = .next t)
    (ht : t.status = .running) : t.mem.read? t.sp = some (s.reg i) := by
  have heffect := effect_of_exec h
  cases heffect
  case push j hj _ _ =>
    obtain rfl : i = j := Fin.ext (by simpa using hj)
    exact hs.push_read? _
  all_goals simp at ht

/-- Settles O26: the next fetch reads the byte just pushed. -/
theorem pushedByteIsTheNextOpcode : Obligations.PushedByteIsTheNextOpcode := by
  intro s t i hs hrun h ht hpc
  have hread : t.mem.read? t.pc = some (s.reg i) := by rw [hpc, read?_sp_of_exec_push hs h ht]
  refine ⟨fun hnone => step_of_fetch_error ht (fetch_illegal hread hnone), fun hhlt => ?_⟩
  obtain ⟨hlt, hop⟩ := Memory.read?_eq_some.mp hread
  obtain ⟨tail, hbytes, -⟩ := t.mem.fetchBytes_head hlt
  rw [hop, hhlt] at hbytes
  exact stepExecutesTheDecodedInstruction t .hlt tail ht (by rw [hbytes]; rfl)

/-- Settles O43: RET pops the link byte CALL pushed. -/
theorem retAfterCallFollowsTheLinkage : Obligations.RetAfterCallFollowsTheLinkage := by
  intro c s t i hs hrun h ht
  have hsp : s.sp ≤ 255 := hs.sp_le
  have heffect := effect_of_execUnder h
  cases heffect
  case call v j hj h0 h1 hl =>
    obtain rfl : i = j := Fin.ext (by simpa using hj)
    have hpopped : (s.mem.write (s.sp - 1) v).read (s.sp - 1) = v := Memory.read_write_same hs.mem_wf _ v
    refine ⟨_, execRet_ok _ (show s.sp - 1 < 255 by omega), hrun, Nat.sub_add_cancel (Nat.pos_of_ne_zero h0), ?_⟩
    simp only [State.jump_pc, State.jump_mem, State.jump_sp, hpopped]
    rcases linkByte_cases c.callLinkage (s.reg i) s with ⟨hc, he⟩ | ⟨hc, hle, he⟩ | ⟨-, -, he⟩
    · obtain rfl : v = s.reg i := by simpa [hl] using he
      simp [hc]
    · obtain rfl : v = BitVec.ofNat 8 (s.pc + 2) := by simpa [hl] using he
      exact ⟨fun ho => by simp [hc] at ho, fun _ => toNat_ofNat_of_le hle⟩
    · simp [hl] at he
  all_goals simp at ht

/-! ### The stack law -/

/-- The state after a push of a register with room for it (R130). -/
def State.afterPush (s : State) (i : Fin 8) : State :=
  State.advance { s with sp := s.sp - 1, mem := s.mem.write (s.sp - 1) (s.reg i) } .push

theorem State.afterPush_reg (s : State) (i : Fin 8) : (s.afterPush i).reg = s.reg := rfl

/-- The state after a pop into a register from a stack that is not empty (R131). -/
def State.afterPop (s : State) (d : Fin 8) : State :=
  (State.setReg { s with sp := s.sp + 1 } d (s.mem.read s.sp)).advance .pop

theorem exec_push_eq {s : State} (i : Fin 8) (h0 : s.sp ≠ 0) (hsp : s.sp ≤ 255) :
    exec (.push (regByte i)) s = .next (s.afterPush i) :=
  execPush_ok s (regByte_toNat i) h0 (hsp.trans (by decide))

theorem exec_pop_eq {s : State} (d : Fin 8) (hsp : s.sp < 255) :
    exec (.pop (regByte d)) s = .next (s.afterPop d) :=
  popUnder_ok .fault s (regByte_toNat d) hsp

/-- The popped register holds the byte that was at `sp`. -/
theorem State.afterPop_reg_same (s : State) (d : Fin 8) : (s.afterPop d).reg d = s.mem.read s.sp :=
  State.setReg_reg_same _ d _

/-- A pop after other pops yields its value after theirs. -/
theorem popValues_append_one {ds : List (Fin 8)} {d : Fin 8} {s u : State} {vs : List Byte}
    (h : popValues ds s = some (vs, u)) (hsp : u.sp < 255) :
    popValues (ds ++ [d]) s = some (vs ++ [u.mem.read u.sp], u.afterPop d) := by
  induction ds generalizing s vs with
  | nil =>
    obtain ⟨rfl, rfl⟩ : [] = vs ∧ s = u := by simpa [popValues] using h
    simp [popValues, exec_pop_eq d hsp, State.afterPop_reg_same]
  | cons e rest ih =>
    obtain ⟨t, ht⟩ := exec_next (.pop (regByte e)) s
    simp only [popValues, ht, Option.map_eq_some_iff, Prod.mk.injEq, Prod.exists] at h
    obtain ⟨ws, w, hrest, rfl, rfl⟩ := h
    simp [popValues, ht, ih hrest]

/-- The stack law with what its induction needs besides: the pops find `sp` at its start, and the cells from there on
as they were. -/
theorem stackLaw (pushed popped : List (Fin 8)) (s : State) (hmem : s.mem.wf) (hsp : s.sp ≤ 255)
    (hs : s.status = .running) (hroom : pushed.length ≤ s.sp) (hlen : popped.length = pushed.length) :
    ∃ t u, execAll (pushed.map fun i => .push (regByte i)) s = .next t ∧ t.status = .running ∧
      popValues popped t = some ((pushed.map s.reg).reverse, u) ∧ u.sp = s.sp ∧ u.status = .running ∧
      ∀ a, s.sp ≤ a → u.mem.read a = s.mem.read a := by
  induction pushed generalizing s popped with
  | nil =>
    obtain rfl : popped = [] := List.length_eq_zero_iff.mp hlen
    exact ⟨s, s, rfl, hs, rfl, rfl, hs, fun _ _ => rfl⟩
  | cons i rest ih =>
    obtain ⟨ds, d, rfl⟩ := (List.eq_nil_or_concat popped).resolve_left (by rintro rfl; simp at hlen)
    simp only [List.length_cons] at hroom
    have hcell : s.sp - 1 < memCapacity := by simp only [memCapacity]; omega
    obtain ⟨t, u, hpush, ht, hpop, husp, hu, hcells⟩ := ih ds (s.afterPush i) (Memory.write_wf hmem hcell _)
      (show s.sp - 1 ≤ 255 by omega) hs (show rest.length ≤ s.sp - 1 by omega) (by simpa using hlen)
    have husp' : u.sp = s.sp - 1 := husp
    have hvalue : u.mem.read u.sp = s.reg i := by
      rw [husp', hcells _ (le_refl (s.sp - 1))]
      exact Memory.read_write_same hmem _ _
    refine ⟨t, u.afterPop d, ?_, ht, ?_, ?_, hu, fun a ha => ?_⟩
    · simpa [execAll, exec_push_eq i (by omega : s.sp ≠ 0) hsp] using hpush
    · have hvalues : (rest.map (s.afterPush i).reg).reverse ++ [s.reg i] = ((i :: rest).map s.reg).reverse := by
        rw [State.afterPush_reg, List.map_cons, List.reverse_cons]
      rw [List.concat_eq_append, popValues_append_one hpop (by omega), hvalue, hvalues]
    · change u.sp + 1 = s.sp
      omega
    · exact (hcells a (show s.sp - 1 ≤ a by omega)).trans (Memory.read_write_other _ _ (by omega))

/-- Settles O42, by induction on the pushed registers: the first pushed is the last popped. -/
theorem popsReturnThePushesReversed : Obligations.PopsReturnThePushesReversed := by
  intro pushed popped s hs hrun hroom hlen
  obtain ⟨t, u, hpush, ht, hpop, hsp, hu, -⟩ := stackLaw pushed popped s hs.mem_wf hs.sp_le hrun hroom hlen
  exact ⟨t, u, hpush, ht, hpop, hsp, hu⟩

end Sys2Proof.Machine
end
